-- ==== Sys2Proof/Word.lean ====
section
/-!
DEFINITION. The machine's word and the byte the memory representation is made of.
Every value of the machine is an unsigned integer of a stated width (00_scope.md R5, R10).
-/

namespace Sys2Proof

/-- A word: a 16-bit unsigned value, the width of an instruction and of a register (R5). -/
abbrev Word := BitVec 16

/-- Half a word. The machine addresses none (R29); memory is only held in such cells. -/
abbrev Byte := BitVec 8

/-- A 4-bit register-index field (R45, R49). -/
abbrev RegField := BitVec 4

end Sys2Proof
end

