-- ==== Sys2Proof/Config.lean ====
section
/-!
DEFINITION. The fixed constants of the hardware (00_scope.md R5) and the defaults of its parameters.
The spec leaves no value open (46_executor_loop.md R104), so there is no free value here.
The three parameters IMEM_LEN, imem and ADD_OVERFLOW_FAULTS (R6 to R8) are fields of State.
-/

namespace Sys2Proof.Config

/-- NREGS: the number of general registers (R5). -/
def nregs : Nat := 3

/-- RESET_PC: the pc after reset (R5, R28). -/
def resetPc : Word := 0

/-- One more than the largest IMEM_LEN, 65534 (R6). A literal, so that Fin's bound reduces. -/
abbrev imemLenBound : Nat := 65535

/-- The number of values the 16-bit pc holds (R18). -/
abbrev pcBound : Nat := 65536

/-- ADD_OVERFLOW_FAULTS' default: wraparound (R8). -/
def addOverflowFaultsDefault : Bool := false

/-- DESIGN CHOICE (log entry 5), unsafe: what a byte of the memory representation that is not listed
reads as. The spec's memory has no byte: a program's words are all supplied by the host (R7). -/
def unlistedByte : Byte := 0

end Sys2Proof.Config
end

