-- ==== Sys2Proof/Syntax.lean ====
section
/-!
DEFINITION. The decoded instruction: the closed set Halt, Load, Swap, Add, Branch (40_decoder.md R61),
each variant carrying only the fields its semantics need (R63). One constructor per row of
spec/opcode_table.json.
-/

namespace Sys2Proof

/-- A decoded instruction. Register fields are the raw 4-bit numbers 0..15: the decoder does not
range-check them (R49, R64). -/
inductive Instr where
  /-- HALT, format Z (R69): output `x[0]` and stop. -/
  | halt
  /-- LOAD reg, value, format RI (R72). -/
  | load (reg : RegField) (value : BitVec 8)
  /-- SWAP reg1, reg2, reg3, format RRR (R75). -/
  | swap (reg1 reg2 reg3 : RegField)
  /-- ADD reg1, reg2, reg3, format RRR, the destination last (R81). -/
  | add (reg1 reg2 reg3 : RegField)
  /-- BR offset, format J (R88): an unsigned 12-bit word count. -/
  | br (offset : BitVec 12)
  deriving DecidableEq, Repr

end Sys2Proof
end

