-- ==== Sys2Proof/WellFormed.lean ====
section
/-!
DEFINITION. The executor's operand validation as a predicate on instructions, `valid` of
40_decoder.md R67: every register index the variant carries names one of the three registers.
Field widths need no check: they are in the types.
-/

namespace Sys2Proof

/-- `valid(d)` of R67. Fields a variant does not carry are not checked (30_encoding.md R53). -/
def Instr.wellFormed : Instr → Bool
  | .halt => true
  | .load reg _ => decide (reg.toNat < Config.nregs)
  | .swap reg1 reg2 reg3 =>
    decide (reg1.toNat < Config.nregs) && decide (reg2.toNat < Config.nregs)
      && decide (reg3.toNat < Config.nregs)
  | .add reg1 reg2 reg3 =>
    decide (reg1.toNat < Config.nregs) && decide (reg2.toNat < Config.nregs)
      && decide (reg3.toNat < Config.nregs)
  | .br _ => true

end Sys2Proof
end

