-- ==== Sys2Proof/Decode.lean ====
section
/-!
DEFINITION. Field extraction (30_encoding.md R47), the decoder (40_decoder.md R63), the decoder block's
signals (R68), the encoder (30_encoding.md R58), the assembly text of an instruction (R56), and the
layout of a word as two bytes that the memory representation uses.
-/

namespace Sys2Proof

/-! ### Fields of a word (R45, R47) -/

/-- `opcode = w[15:12]`. -/
def opcodeField (w : Word) : BitVec 4 := w.extractLsb' 12 4

/-- `reg1 = w[11:8]`. -/
def reg1Field (w : Word) : RegField := w.extractLsb' 8 4

/-- `reg2 = w[7:4]`. -/
def reg2Field (w : Word) : RegField := w.extractLsb' 4 4

/-- `reg3 = w[3:0]`. -/
def reg3Field (w : Word) : RegField := w.extractLsb' 0 4

/-- `value = w[7:0]`. -/
def valueField (w : Word) : BitVec 8 := w.extractLsb' 0 8

/-- `offset = w[11:0]`. -/
def offsetField (w : Word) : BitVec 12 := w.extractLsb' 0 12

/-! ### The decoder -/

/-- `decode` of R63: the opcode alone selects the variant (R61); opcodes 5..15 are "no match" (R62);
register indices are not range-checked (R64). -/
def decode (w : Word) : Option Instr :=
  match (opcodeField w).toNat with
  | 0 => some .halt
  | 1 => some (.load (reg1Field w) (valueField w))
  | 2 => some (.swap (reg1Field w) (reg2Field w) (reg3Field w))
  | 3 => some (.add (reg1Field w) (reg2Field w) (reg3Field w))
  | 4 => some (.br (offsetField w))
  | _ => none

/-- The outputs of the decoder block (R68). `kind` and `idxOk` are `none` where the table calls them
meaningless (`match` = 0; DESIGN CHOICE, log entry 13, safe). -/
structure DecoderSignals where
  matched : Bool
  kind    : Option (BitVec 3)
  reg1    : RegField
  reg2    : RegField
  reg3    : RegField
  value   : BitVec 8
  offset  : BitVec 12
  idxOk   : Option Bool
  deriving DecidableEq, Repr

/-- The decoder block, a function of `word` only (R60, R65, R68): `match` is `word[15:12] <= 4`, `kind`
is `word[14:12]`, the fields are driven unconditionally. -/
def decoderSignals (w : Word) : DecoderSignals :=
  let isMatch := decide ((opcodeField w).toNat ≤ 4)
  { matched := isMatch
    kind := if isMatch then some (w.extractLsb' 12 3) else none
    reg1 := reg1Field w
    reg2 := reg2Field w
    reg3 := reg3Field w
    value := valueField w
    offset := offsetField w
    idxOk := (decode w).map Instr.wellFormed }

/-! ### The encoder -/

/-- `encode` of R58. HALT's canonical word is 0x0000 (R51). -/
def encode : Instr → Word
  | .halt => 0x0000#16
  | .load reg value => 0x1000#16 ||| (reg.setWidth 16 <<< 8) ||| value.setWidth 16
  | .swap reg1 reg2 reg3 =>
    0x2000#16 ||| (reg1.setWidth 16 <<< 8) ||| (reg2.setWidth 16 <<< 4) ||| reg3.setWidth 16
  | .add reg1 reg2 reg3 =>
    0x3000#16 ||| (reg1.setWidth 16 <<< 8) ||| (reg2.setWidth 16 <<< 4) ||| reg3.setWidth 16
  | .br offset => 0x4000#16 ||| offset.setWidth 16

/-- The opcode number of a variant (R50). -/
def Instr.opcode : Instr → BitVec 4
  | .halt => 0
  | .load _ _ => 1
  | .swap _ _ _ => 2
  | .add _ _ _ => 3
  | .br _ => 4

/-! ### Assembly text (R56) -/

/-- `rN`, register N in decimal (R56). -/
def regText (r : RegField) : String := "r" ++ Nat.repr r.toNat

/-- Three register operands in field order (R56). -/
def regsText (reg1 reg2 reg3 : RegField) : String :=
  regText reg1 ++ ", " ++ regText reg2 ++ ", " ++ regText reg3

/-- The assembly syntax of an instruction (R56); immediates in decimal. -/
def asmText : Instr → String
  | .halt => "HALT"
  | .load reg value => "LOAD " ++ regText reg ++ ", " ++ Nat.repr value.toNat
  | .swap reg1 reg2 reg3 => "SWAP " ++ regsText reg1 reg2 reg3
  | .add reg1 reg2 reg3 => "ADD " ++ regsText reg1 reg2 reg3
  | .br offset => "BR " ++ Nat.repr offset.toNat

/-! ### A word as two cells of the memory representation

The machine has no byte order (R34). DESIGN CHOICE (log entry 4), safe: the representation keeps the
low half of word n in cell 2n and the high half in cell 2n + 1; no rule reads a half alone. -/

/-- The low half of a word. -/
def lowByte (w : Word) : Byte := w.extractLsb' 0 8

/-- The high half of a word. -/
def highByte (w : Word) : Byte := w.extractLsb' 8 8

/-- The word with the given halves. -/
def wordOfBytes (lo hi : Byte) : Word := hi ++ lo

/-- Why a sequence of bytes is no instruction. -/
inductive DecodeError where
  /-- The word's opcode is 5..15, the "no match" of R62. -/
  | noMatch
  /-- The bytes are not exactly one 16-bit word (R44). -/
  | notOneWord
  deriving DecidableEq, Repr

/-- The decoder on bytes laid out as memory holds them, total and rejecting by name. -/
def decodeBytes : List Byte → Except DecodeError Instr
  | [lo, hi] =>
    match decode (wordOfBytes lo hi) with
    | some i => .ok i
    | none => .error .noMatch
  | _ => .error .notOneWord

/-- The instruction word whose low `nbits` bits are those of `w`, all others 0. -/
def tableWord (nbits w : Nat) : Word := BitVec.ofNat 16 (w % 2 ^ nbits)

/-- The instruction the decoder reads from the bits `w` of an opcode-table row `nbits` bits long. -/
def decodeTableWord (nbits w : Nat) : Option Instr :=
  match decodeBytes [lowByte (tableWord nbits w), highByte (tableWord nbits w)] with
  | .ok i => some i
  | .error _ => none

end Sys2Proof
end

