-- ==== Sys2Proof/Machine/State.lean ====
section
/-!
DEFINITION. The state of the machine, whole (10_state.md R13), with the parameters of 00_scope.md R6 to
R8 held beside it, the reasons a step can stop, and the state after reset (R28). Plain data throughout.
-/

namespace Sys2Proof.Machine

/-- The names of the three general registers (R14). There is no register 3..15 (R16). -/
inductive Reg where
  | r0
  | r1
  | r2
  deriving DecidableEq, Repr

/-- The register file: three 16-bit registers, none hard-wired (R14). -/
structure RegFile where
  x0 : Word
  x1 : Word
  x2 : Word
  deriving DecidableEq, Repr

/-- The status register's values (R23); the 3-bit codes are `Status.code`. Codes 6 and 7 are never
produced and have no constructor (V2; log entry 7). -/
inductive Status where
  /-- Code 0: the next step will be taken. -/
  | running
  /-- Code 1: a Halt executed. -/
  | halted
  /-- Code 2: a word with opcode 5..15 was fetched. -/
  | stoppedUnknownOpcode
  /-- Code 3: a decoded instruction carried a register index >= 3. -/
  | faultRegIndex
  /-- Code 4: a fetch with pc >= IMEM_LEN, or a Branch target below 0. -/
  | faultPcRange
  /-- Code 5: an Add overflowed in strict mode. -/
  | faultAddOverflow
  deriving DecidableEq, Repr

/-- The conditions that end a run, under the source's names (R111, R115). -/
inductive Cause where
  /-- Halt executed ("Halted-by-instruction"). -/
  | haltExecuted
  /-- DecodeFailure ("Halted-by-unknown-opcode"), R116. -/
  | decodeFailure
  /-- RegisterIndexOutOfRange, R117. -/
  | registerIndexOutOfRange
  /-- ProgramCounterOutOfRange, R118 and R119. -/
  | programCounterOutOfRange
  /-- ArithmeticOverflow, R120. -/
  | arithmeticOverflow
  deriving DecidableEq, Repr

/-- Instruction memory with its length (R6, R7, R29). Word n is held in cells 2n and 2n + 1; a cell that
is not listed reads as `Config.unlistedByte`; `Memory.wf` is the canonical form. The type of `len` is
the parameter's range 0..65534. -/
structure Memory where
  len   : Fin Config.imemLenBound
  cells : List Host.Cell
  deriving DecidableEq, Repr

/-- The state of the machine. `x`, `pc`, `status` and `out` are R13's list; `imem` and
`addOverflowFaults` are the parameters, which no step changes (DESIGN CHOICE, log entries 1 and 2). -/
structure State where
  /-- The general registers (R14). -/
  x : RegFile
  /-- The program counter, a word index (R18). -/
  pc : Word
  /-- The run state (R23). -/
  status : Status
  /-- The halt-output latch, `none` when `out_valid` = 0 (R13, R25; log entry 6). -/
  out : Option Word
  /-- The program and IMEM_LEN (R6, R7). -/
  imem : Memory
  /-- ADD_OVERFLOW_FAULTS (R8): `false` wraps, `true` is the strict mode. -/
  addOverflowFaults : Bool
  deriving DecidableEq, Repr

/-- Why the model stops where the machine takes no step. The spec's own faults are no constructor here:
they end a run by a next state that records them in `status` (R115, R121). -/
inductive Fault where
  /-- Raised by `step` in a state whose status is terminal: "from any other status there is no step"
  (R96, R24). DEDUCED (log entry 8), safe: nothing can be proved of a step that does not exist. -/
  | runEnded
  /-- Raised by a meaning whose exact new pc would exceed 65535. No step raises it: an instruction
  executes only at a pc below IMEM_LEN <= 65534, which keeps every written pc at or below 65535 (R21,
  R86). DESIGN CHOICE (log entry 9), safe: the model stops and never wraps. -/
  | pcOverflow
  deriving DecidableEq, Repr

/-- Why an instruction is refused. -/
inductive Refusal where
  /-- Raised by an arm of `exec` that has no meaning yet; no arm is left so. Safe. -/
  | notModelled (mnemonic : String)
  deriving DecidableEq, Repr

/-- The machine right after reset (R28, R131), with no program supplied (DESIGN CHOICE, log entry 3,
unsafe) and ADD_OVERFLOW_FAULTS at its default (R8). -/
def State.reset : State where
  x := { x0 := 0, x1 := 0, x2 := 0 }
  pc := Config.resetPc
  status := .running
  out := none
  imem := { len := 0, cells := [] }
  addOverflowFaults := Config.addOverflowFaultsDefault

end Sys2Proof.Machine
end

