-- ==== Sys2Proof/Machine/Ops.lean ====
section
/-!
DEFINITION. The named operations over memory, registers, pc, status and output; ending a run, the one
shared operation for every exceptional condition (00_scope.md R11, 60_exceptions.md R121, R124), with
reset, the only way back (R127, R130), beside it; and the fetch and decode that open a step (R96).
-/

namespace Sys2Proof.Machine

/-- What a meaning answers. -/
abbrev Result := Host.Outcome State Fault Refusal

/-! ### Registers (R11, R14) -/

/-- `x[r]`. -/
def RegFile.read (x : RegFile) : Reg → Word
  | .r0 => x.x0
  | .r1 => x.x1
  | .r2 => x.x2

/-- `x[r] <- v`. -/
def RegFile.write (x : RegFile) (r : Reg) (v : Word) : RegFile :=
  match r with
  | .r0 => { x with x0 := v }
  | .r1 => { x with x1 := v }
  | .r2 => { x with x2 := v }

/-- A read of the live register file (R11). -/
def State.readReg (s : State) (r : Reg) : Word := s.x.read r

/-- A register write; takes effect at once (R11). -/
def State.setReg (s : State) (r : Reg) (v : Word) : State := { s with x := s.x.write r v }

/-! ### Status and output -/

/-- The numeric code of a status (R23, R115). -/
def Status.code : Status → BitVec 3
  | .running => 0
  | .halted => 1
  | .stoppedUnknownOpcode => 2
  | .faultRegIndex => 3
  | .faultPcRange => 4
  | .faultAddOverflow => 5

/-- `code(<Cause>)` of R115, as a status. -/
def Cause.status : Cause → Status
  | .haltExecuted => .halted
  | .decodeFailure => .stoppedUnknownOpcode
  | .registerIndexOutOfRange => .faultRegIndex
  | .programCounterOutOfRange => .faultPcRange
  | .arithmeticOverflow => .faultAddOverflow

/-- The three fatal conditions of R111, as against the two stops, Halt and unknown opcode. -/
def Status.isFault : Status → Bool
  | .running => false
  | .halted => false
  | .stoppedUnknownOpcode => false
  | .faultRegIndex => true
  | .faultPcRange => true
  | .faultAddOverflow => true

/-- `status <- c` (R11). -/
def State.setStatus (s : State) (c : Status) : State := { s with status := c }

/-- `out <- v`: `out_valid <- 1`, `out_data <- v` (R11, R25). -/
def State.emit (s : State) (v : Word) : State := { s with out := some v }

/-- The `out_valid` register (R25). -/
def State.outValid (s : State) : Bool := s.out.isSome

/-- The `out_data` register; 0 while `out_valid` = 0 (R25). -/
def State.outData (s : State) : Word := s.out.getD 0

/-! ### Ending a run, and reset -/

/-- `raise <Cause>` and `stop <Cause>` (R11): the step ends with the write of `status` and nothing else.
There is no handler, vector or saved state (R124). -/
def raise (c : Cause) (s : State) : Result := .next (s.setStatus c.status)

/-- Asserting and releasing `rst` (R130): every piece of state returns to its reset value; the
parameters, instruction memory among them, are not state and stay (R131). -/
def assertReset (s : State) : State :=
  { State.reset with imem := s.imem, addOverflowFaults := s.addOverflowFaults }

/-! ### The pc (R18 to R21, R86) -/

/-- A write of the 16-bit pc register. -/
def State.writePc (s : State) (v : Word) : State := { s with pc := v }

/-- `pc <- n` for an exact integer n. A value the 16-bit register cannot hold is never wrapped. -/
def setPc (n : Nat) (s : State) : Result :=
  if n < Config.pcBound then .next (s.writePc (BitVec.ofNat 16 n)) else .fault .pcOverflow

/-- The fall-through advance `pc <- pc + 1` (R99). -/
def advance (s : State) : Result := setPc (s.pc.toNat + 1) s

/-! ### Memory cells -/

/-- The byte at cell `a` of a cell list. -/
def readCells : List Host.Cell → Nat → Byte
  | [], _ => Config.unlistedByte
  | (k, b) :: t, a => if k = a then b else readCells t a

/-- A cell write that keeps a rising list rising and lists no `unlistedByte`. -/
def writeCells : List Host.Cell → Nat → Byte → List Host.Cell
  | [], a, v => if v = Config.unlistedByte then [] else [(a, v)]
  | (k, b) :: t, a, v =>
    if k < a then (k, b) :: writeCells t a v
    else if k = a then (if v = Config.unlistedByte then t else (a, v) :: t)
    else (if v = Config.unlistedByte then (k, b) :: t else (a, v) :: (k, b) :: t)

/-- Cell addresses rise strictly from `lo` on, stay below `hi`, and no cell holds `unlistedByte`. -/
def cellsWf (lo hi : Nat) : List Host.Cell → Bool
  | [] => true
  | (k, b) :: t =>
    decide (lo ≤ k) && decide (k < hi) && decide (b ≠ Config.unlistedByte) && cellsWf (k + 1) hi t

/-- The canonical form of a memory: cells of existing words only, rising, none equal to what an unlisted
cell reads as. Equal memories are then equal data. -/
def Memory.wf (m : Memory) : Bool := cellsWf 0 (2 * m.len.val) m.cells

/-- The byte at cell `a` of memory. -/
def Memory.readByte (m : Memory) (a : Nat) : Byte := readCells m.cells a

/-- `MemRead(n, 1)` (R11, R32): the word at index n, and nothing at or beyond IMEM_LEN. -/
def Memory.readWord? (m : Memory) (n : Nat) : Option Word :=
  if n < m.len.val then some (wordOfBytes (m.readByte (2 * n)) (m.readByte (2 * n + 1))) else none

/-- A length as the parameter IMEM_LEN, cut off at its largest value 65534 (R6). -/
def toLen (n : Nat) : Fin Config.imemLenBound := ⟨min n 65534, Nat.lt_of_le_of_lt (Nat.min_le_right n 65534) (by decide)⟩

/-- The HOST's placing of a word at index n before a run (R109 (a)); no instruction calls it (R30). The
memory becomes long enough to hold index n; an index no memory can have (R6) is not written. -/
def Memory.placeWord (m : Memory) (n : Nat) (w : Word) : Memory :=
  if n < 65534 then
    { len := toLen (max m.len.val (n + 1))
      cells := writeCells (writeCells m.cells (2 * n) (lowByte w)) (2 * n + 1) (highByte w) }
  else m

/-- The host's placing of a sequence of words from index n on. -/
def Memory.placeWords (m : Memory) : Nat → List Word → Memory
  | _, [] => m
  | n, w :: ws => Memory.placeWords (m.placeWord n w) (n + 1) ws

/-- The memory that holds exactly the given words (R7, R29). -/
def Memory.ofWords (ws : List Word) : Memory :=
  Memory.placeWords { len := 0, cells := [] } 0 ws

/-! ### Opening a step: status, range test, fetch, decode (R96, R98) -/

/-- The word a step fetches: `imem(pc)` when `pc < IMEM_LEN` (R31, R96). -/
def fetch (s : State) : Option Word := s.imem.readWord? s.pc.toNat

/-- What a step does before EXECUTE: the decoded instruction, or how the step ends without one. -/
def fetchDecode (s : State) : Except Result Instr :=
  if s.status = .running then
    match fetch s with
    | none => .error (raise .programCounterOutOfRange s)
    | some w =>
      match decode w with
      | none => .error (raise .decodeFailure s)
      | some i => .ok i
  else .error (.fault .runEnded)

end Sys2Proof.Machine
end

