-- ==== Sys2Proof/Machine/Operands.lean ====
section
/-!
DEFINITION. The operand forms: a register-index field with the executor's validation (40_decoder.md R67),
one field or three together, and the zero-extended 8-bit immediate (30_encoding.md R48).
The validation stands in the meanings, after decode and before anything of the instruction is executed
(DEDUCED, log entry 10, safe).
-/

namespace Sys2Proof.Machine

/-- The register a field names: 0, 1 or 2, and no register for 3..15, which do not alias (R16). -/
def regOf (f : RegField) : Option Reg :=
  match f.toNat with
  | 0 => some .r0
  | 1 => some .r1
  | 2 => some .r2
  | _ => none

/-- The field value that names a register. -/
def Reg.field : Reg → RegField
  | .r0 => 0
  | .r1 => 1
  | .r2 => 2

/-- Validate one carried index and go on with its register, or raise RegisterIndexOutOfRange with
nothing written (R67, R117). -/
def withReg (f : RegField) (s : State) (body : Reg → Result) : Result :=
  match regOf f with
  | some r => body r
  | none => raise .registerIndexOutOfRange s

/-- Validate three carried indices together, before any of them is used (R67). -/
def withRegs (f1 f2 f3 : RegField) (s : State) (body : Reg → Reg → Reg → Result) : Result :=
  match regOf f1, regOf f2, regOf f3 with
  | some a, some b, some c => body a b c
  | _, _, _ => raise .registerIndexOutOfRange s

/-- `zext_16(value)` (R10, R48). -/
def zext16 (value : BitVec 8) : Word := value.setWidth 16

end Sys2Proof.Machine
end

