-- ==== Sys2Proof/Machine/Flags.lean ====
section
/-!
DEFINITION. The arithmetic unit, one 16-bit unsigned adder (44_add.md R81, R85). The machine has no status
flags (10_state.md R26): the carry out of bit 15 is computed only for the strict mode's test and is kept
nowhere.
-/

namespace Sys2Proof.Machine

/-- The exact sum of two words, 0..131070 (R81). -/
def exactSum (u v : Word) : Nat := u.toNat + v.toNat

/-- The exact sum exceeds 65535 (R81, R120). -/
def sumOverflows (u v : Word) : Bool := decide (65535 < exactSum u v)

/-- The low 16 bits of the sum (R81, R82). -/
def wrappedSum (u v : Word) : Word := BitVec.ofNat 16 (exactSum u v % 65536)

end Sys2Proof.Machine
end

