-- ==== Sys2Proof/Machine/Arith.lean ====
section
/-!
DEFINITION. The arithmetic family: ADD (44_add.md).
-/

namespace Sys2Proof.Machine

/-- ADD reg1, reg2, reg3 (R81): both sources are read before the destination is written (R84); the sum
wraps by default (R82) and faults on overflow in strict mode (R83). -/
def execAdd (reg1 reg2 reg3 : RegField) (s : State) : Result :=
  withRegs reg1 reg2 reg3 s fun a b c =>
    if s.addOverflowFaults && sumOverflows (s.readReg a) (s.readReg b) then
      raise .arithmeticOverflow s
    else advance (s.setReg c (wrappedSum (s.readReg a) (s.readReg b)))

end Sys2Proof.Machine
end

