-- ==== Sys2Proof/Machine/Control.lean ====
section
/-!
DEFINITION. The control family: BR (45_branch.md).
-/

namespace Sys2Proof.Machine

/-- BR offset (R88): the target p + 2 - k as one exact expression, tested once for being below 0
(R89, R91). A target at or beyond IMEM_LEN is left to the next fetch (R93). -/
def execBr (offset : BitVec 12) (s : State) : Result :=
  if s.pc.toNat + 2 < offset.toNat then raise .programCounterOutOfRange s
  else setPc (s.pc.toNat + 2 - offset.toNat) s

end Sys2Proof.Machine
end

