-- ==== Sys2Proof/Machine/Move.lean ====
section
/-!
DEFINITION. The data-movement family: LOAD (42_load.md) and SWAP (43_swap.md).
-/

namespace Sys2Proof.Machine

/-- LOAD reg, value (R72): the whole register becomes the zero-extended immediate (R73). -/
def execLoad (reg : RegField) (value : BitVec 8) (s : State) : Result :=
  withReg reg s fun r => advance (s.setReg r (zext16 value))

/-- The three writes of SWAP in their order, each reading the live register file (R75, R76). -/
def rotate (a b c : Reg) (s : State) : State :=
  let s1 := s.setReg c (s.readReg a)
  let s2 := s1.setReg a (s1.readReg b)
  s2.setReg b (s2.readReg c)

/-- SWAP reg1, reg2, reg3 (R75). -/
def execSwap (reg1 reg2 reg3 : RegField) (s : State) : Result :=
  withRegs reg1 reg2 reg3 s fun a b c => advance (rotate a b c s)

end Sys2Proof.Machine
end

