-- ==== Sys2Proof/Machine/System.lean ====
section
/-!
DEFINITION. The system family: HALT (41_halt.md).
-/

namespace Sys2Proof.Machine

/-- HALT (R69): output `x[0]`, stop; the pc keeps the index of the Halt, no register is written. -/
def execHalt (s : State) : Result := raise .haltExecuted (s.emit (s.readReg .r0))

end Sys2Proof.Machine
end

