-- ==== Sys2Proof/Machine/Dispatch.lean ====
section
/-!
DEFINITION. Execute dispatch: exhaustive over the five variants, no default arm (46_executor_loop.md R108).
-/

namespace Sys2Proof.Machine

def exec (i : Instr) (s : State) : Host.Outcome State Fault Refusal :=
  match i with
  | .halt => Sys2Proof.Machine.execHalt s
  | .load reg value => Sys2Proof.Machine.execLoad reg value s
  | .swap reg1 reg2 reg3 => Sys2Proof.Machine.execSwap reg1 reg2 reg3 s
  | .add reg1 reg2 reg3 => Sys2Proof.Machine.execAdd reg1 reg2 reg3 s
  | .br offset => Sys2Proof.Machine.execBr offset s

end Sys2Proof.Machine
end

