-- ==== Sys2Proof/Machine/Step.lean ====
section
/-!
DEFINITION. One step of the machine (46_executor_loop.md R96): fetch, decode, then execute, which validates
first and advances last. And the placing of one instruction where the next step fetches it.
-/

namespace Sys2Proof.Machine

/-- The step of R96. -/
def step (s : State) : Host.Outcome State Fault Refusal :=
  match fetchDecode s with
  | .ok i => exec i s
  | .error r => r

/-- `s` with the instruction word of the low `nbits` bits of `w` at the index `pc` and the machine running,
so that the next step fetches and runs it (DESIGN CHOICE, log entry 11, safe). It stands for the host's supply of a program
before a run (R109 (a)). A pc no fetch can succeed at (65534 and 65535, R6) gets no word. -/
def State.withFetchWord (s : State) (nbits w : Nat) : State :=
  { s with imem := s.imem.placeWord s.pc.toNat (tableWord nbits w), status := .running }

end Sys2Proof.Machine
end

