-- ==== Sys2Proof/Machine/HostPort.lean ====
section
/-!
DEFINITION. The host's side of the block (46_executor_loop.md R109, R110): supplying a program, the block
signals, what the host may read, the diagnostic items of a fault (60_exceptions.md R114, R122), and the
line a host prints at Halt (41_halt.md R70). Resetting is `assertReset` in Ops.lean.
-/

namespace Sys2Proof.Machine

/-- The machine as a run begins with the given program and parameter (R100, R109, R132). A program longer
than 65534 words is refused (R6, V6). -/
def bootState? (program : List Word) (strict : Bool) : Option State :=
  if program.length ≤ 65534 then
    some { State.reset with imem := Memory.ofWords program, addOverflowFaults := strict }
  else none

/-- The block-level signals of R110, but for `rst`, an input. `imemData` is `none` where the table says it
is ignored (DESIGN CHOICE, log entry 13, safe). -/
structure BlockSignals where
  imemAddr : Word
  imemData : Option Word
  imemLen  : Word
  status   : BitVec 3
  outValid : Bool
  outData  : Word
  deriving DecidableEq, Repr

/-- The signals in a state (R110): the address equals the pc. -/
def blockSignals (s : State) : BlockSignals :=
  { imemAddr := s.pc
    imemData := fetch s
    imemLen := BitVec.ofNat 16 s.imem.len.val
    status := s.status.code
    outValid := s.outValid
    outData := s.outData }

/-- What the host may read once status is terminal (R109 (d)). -/
structure FinalView where
  outValid : Bool
  outData  : Word
  pc       : Word
  x        : RegFile
  deriving DecidableEq, Repr

/-- What the host may read (R109): `status` at any time, the rest when status is terminal. -/
structure HostView where
  status : BitVec 3
  final  : Option FinalView
  deriving DecidableEq, Repr

/-- The host's reading of a state (R105, R109). -/
def hostView (s : State) : HostView :=
  { status := s.status.code
    final :=
      if s.status = .running then none
      else some { outValid := s.outValid, outData := s.outData, pc := s.pc, x := s.x } }

/-- The items that identify a fatal condition: the failing pc, the failing word's opcode when there is a
word, and the condition (R114, R122). -/
structure Diagnostic where
  pc     : Word
  opcode : Option (BitVec 4)
  status : Status
  deriving DecidableEq, Repr

/-- The diagnostic of a state that ended by one of the three fatal conditions of R111. -/
def diagnostic (s : State) : Option Diagnostic :=
  if s.status.isFault then
    some { pc := s.pc, opcode := (fetch s).map opcodeField, status := s.status }
  else none

/-- The text of the line a host prints when status becomes HALTED: `out_data` in decimal, without the
line's terminator, which the spec leaves to the host (R70, V7; DESIGN CHOICE, log entry 13). -/
def printedLine (s : State) : Option String :=
  match s.status with
  | .halted => some (Nat.repr s.outData.toNat)
  | .running | .stoppedUnknownOpcode | .faultRegIndex | .faultPcRange | .faultAddOverflow => none

end Sys2Proof.Machine
end

