-- ==== Sys2Proof/Machine/Run.lean ====
section
/-!
DEFINITION. The run built from steps (46_executor_loop.md R100 to R103): the state after at most k steps,
stopping where the run ends.
-/

namespace Sys2Proof.Machine

/-- The run has ended: status is not RUNNING (R102). -/
def State.ended (s : State) : Bool := decide (s.status ≠ .running)

/-- Exactly k steps from `s`: the state after them, or the reason one of them could not be taken (R96: none
can from a terminal status). -/
def takeSteps : Nat → State → Result
  | 0, s => .next s
  | k + 1, s =>
    match step s with
    | .next t => takeSteps k t
    | .fault r => .fault r
    | .refused r => .refused r

/-- The state of the run from `s` after k steps, or its final state if it ends sooner (R100). -/
def runFor : Nat → State → State
  | 0, s => s
  | k + 1, s =>
    match step s with
    | .next t => runFor k t
    | .fault _ => s
    | .refused _ => s

end Sys2Proof.Machine
end

