-- ==== Sys2Proof/Safety.lean ====
section
/-!
DEFINITION. The terms claims are made in: the invariant of the machine, what explains each way a run ends
(46_executor_loop.md R102, 60_exceptions.md R122), what each instruction may write (10_state.md R15), and
the conditions it can raise (60_exceptions.md R112).
-/

namespace Sys2Proof.Machine

/-- The invariant every step keeps: instruction memory is in its canonical form, the pc is at most
IMEM_LEN + 1 (R21), and the output is valid exactly when status is HALTED, then holding `x[0]` (R25, R69). -/
abbrev StateInv (s : State) : Prop :=
  s.imem.wf = true ∧ s.pc.toNat ≤ s.imem.len.val + 1 ∧
    s.out = (if s.status = .halted then some (s.readReg .r0) else none)

/-- The instruction at the pc, if there is a word there and it decodes (R96). -/
def decodedAt (s : State) : Option Instr := (fetch s).bind decode

/-- Each terminal status is explained by what stands at the pc, "the index of the instruction that ended
the run" (R102, R112, R122). -/
def EndExplained (s : State) : Prop :=
  match s.status with
  | .running => True
  | .halted => decodedAt s = some .halt
  | .stoppedUnknownOpcode => ∃ w, fetch s = some w ∧ decode w = none
  | .faultRegIndex => ∃ i, decodedAt s = some i ∧ i.wellFormed = false
  | .faultPcRange =>
    s.imem.len.val ≤ s.pc.toNat ∨ ∃ k, decodedAt s = some (.br k) ∧ s.pc.toNat + 2 < k.toNat
  | .faultAddOverflow =>
    s.addOverflowFaults = true ∧
      ∃ a b c : Reg, decodedAt s = some (.add a.field b.field c.field) ∧
        65535 < (s.readReg a).toNat + (s.readReg b).toNat

/-- The registers an instruction writes (R15): none for Halt and Branch, the named one for Load, all three
for Swap, the last for Add. -/
def writes : Instr → List Reg
  | .halt => []
  | .load reg _ => [reg].filterMap regOf
  | .swap reg1 reg2 reg3 => [reg1, reg2, reg3].filterMap regOf
  | .add _ _ reg3 => [reg3].filterMap regOf
  | .br _ => []

/-- The ends of a run an instruction can produce (R112). -/
def endings : Instr → List Status
  | .halt => [.halted]
  | .load _ _ => [.faultRegIndex]
  | .swap _ _ _ => [.faultRegIndex]
  | .add _ _ _ => [.faultRegIndex, .faultAddOverflow]
  | .br _ => [.faultPcRange]

/-- Two states in default mode that agree in everything the flow of control depends on: pc, status and
program. The registers and the output may differ (R94). -/
def SameControl (s t : State) : Prop :=
  s.pc = t.pc ∧ s.status = t.status ∧ s.imem = t.imem ∧
    s.addOverflowFaults = false ∧ t.addOverflowFaults = false

end Sys2Proof.Machine
end

