-- ==== Sys2Proof/Certificates/Slice0/Obligations.lean ====
section
/-!
DEFINITION. The statements for the provers. Each docstring names the rules of spec/ it formalises.
`Reg` ranges over the three registers, `r.field` is the field value that names `r`; a statement over `Reg`
covers the fields 0, 1, 2, and BadRegisterIndexFaults covers the fields 3..15.
`s.pc.toNat < s.imem.len.val` is the condition under which a step executes an instruction (R96).
-/

open Sys2Proof Sys2Proof.Machine

/-! ### Reset, the host's supply of a program, and the parameters -/

/-- R28: the value of every piece of state after reset. -/
def Obligations.ResetLeavesStatedValues : Prop :=
  State.reset.x = ⟨0, 0, 0⟩ ∧ State.reset.pc = 0 ∧ State.reset.status = .running ∧
    State.reset.outValid = false ∧ State.reset.outData = 0

/-- R131: reset gives the reset values whatever the state before, and leaves instruction memory (and the
strict-mode parameter, R132) alone. -/
def Obligations.ResetForgetsTheRun : Prop :=
  ∀ s : State,
    (assertReset s).x = ⟨0, 0, 0⟩ ∧ (assertReset s).pc = 0 ∧ (assertReset s).status = .running ∧
      (assertReset s).outValid = false ∧ (assertReset s).outData = 0 ∧
      (assertReset s).imem = s.imem ∧ (assertReset s).addOverflowFaults = s.addOverflowFaults

/-- The reset state meets the invariant (R21, R25, R28). The empty program it holds is the model's choice
(log entry 3). -/
def Obligations.ResetMeetsInvariant : Prop :=
  StateInv State.reset

/-- R6, R7, R32, R132: the host may supply any program of at most 65534 words; the machine then stands in
the reset state with exactly those words in instruction memory and none beyond, and meets the invariant;
a longer program is refused (V6). -/
def Obligations.SuppliedProgramIsHeld : Prop :=
  ∀ (program : List Word) (strict : Bool),
    (program.length ≤ 65534 → ∃ s, bootState? program strict = some s ∧ StateInv s ∧
      s.x = ⟨0, 0, 0⟩ ∧ s.pc = 0 ∧ s.status = .running ∧ s.out = none ∧
      s.addOverflowFaults = strict ∧ s.imem.len.val = program.length ∧
      ∀ n, s.imem.readWord? n = program[n]?) ∧
    (65534 < program.length → bootState? program strict = none)

/-- The representation of instruction memory is canonical: two memories of one length in canonical form
that hold the same words are the same data (R29; the byte cells are the model's choice, log entries 4, 5). -/
def Obligations.SameWordsAreSameMemory : Prop :=
  ∀ m n : Memory, m.wf = true → n.wf = true → m.len = n.len →
    (∀ q, m.readWord? q = n.readWord? q) → m = n

/-- A word placed at the pc is the one the next step fetches and runs (the model's loading convention, log
entry 11; R96). -/
def Obligations.PlacedWordIsRunNext : Prop :=
  ∀ (s : State) (w : Nat) (i : Instr),
    s.imem.wf = true → s.pc.toNat < 65534 → decode (BitVec.ofNat 16 w) = some i →
    step (s.withFetchWord 16 w) = exec i (s.withFetchWord 16 w)

/-! ### Encoding -/

/-- R58, whole: the encoder's words, `decode(encode(d)) = some d` for every variant value, and
`encode(decode(w)) = w` for every word with opcode 1..4, and for opcode 0 only when w = 0x0000. -/
def Obligations.DecodeAndEncodeAgree : Prop :=
  encode .halt = 0x0000#16 ∧
  (∀ reg value, encode (.load reg value) =
    0x1000#16 ||| (reg.setWidth 16 <<< 8) ||| value.setWidth 16) ∧
  (∀ reg1 reg2 reg3, encode (.swap reg1 reg2 reg3) =
    0x2000#16 ||| (reg1.setWidth 16 <<< 8) ||| (reg2.setWidth 16 <<< 4) ||| reg3.setWidth 16) ∧
  (∀ reg1 reg2 reg3, encode (.add reg1 reg2 reg3) =
    0x3000#16 ||| (reg1.setWidth 16 <<< 8) ||| (reg2.setWidth 16 <<< 4) ||| reg3.setWidth 16) ∧
  (∀ offset, encode (.br offset) = 0x4000#16 ||| offset.setWidth 16) ∧
  (∀ i : Instr, decode (encode i) = some i) ∧
  (∀ (w : Word) (i : Instr), decode w = some i →
    (encode i = w ↔ 0x1000 ≤ w.toNat ∨ w = 0x0000#16))

/-- Words of each family written out in section 2.1 of 95_test_vectors.md (R47, R63). -/
def Obligations.SpecWordsDecode : Prop :=
  decode 0x0ABC#16 = some .halt ∧ decode 0x1110#16 = some (.load 1 16) ∧
    decode 0x2012#16 = some (.swap 0 1 2) ∧ decode 0x3021#16 = some (.add 0 2 1) ∧
    decode 0x4ABC#16 = some (.br 2748) ∧ decode 0x6ABC#16 = none

/-- R53, R54: the words that decode to an instruction whose indices are all in 0..2 are exactly Halt's, the
Loads 0x1000..0x12FF, the Swaps and Adds with three hexadecimal digits below 3, and Branch's. -/
def Obligations.ExecutableWords : Prop :=
  ∀ w : Word, (decode w).map Instr.wellFormed = some true ↔
    w.toNat < 0x1300 ∨
    (0x2000 ≤ w.toNat ∧ w.toNat < 0x4000 ∧
      w.toNat / 256 % 16 < 3 ∧ w.toNat / 16 % 16 < 3 ∧ w.toNat % 16 < 3) ∨
    (0x4000 ≤ w.toNat ∧ w.toNat < 0x5000)

/-- R68 (with R47, R60, R67): the decoder block's outputs as functions of the word alone. That `idxOk` is
absent for a word that does not decode is the model's choice (log entry 13): R68 computes idx_ok from kind,
which it calls meaningless there. -/
def Obligations.DecoderBlockOutputs : Prop :=
  ∀ w : Word,
    ((decoderSignals w).matched = true ↔ w.toNat / 4096 ≤ 4) ∧
    ((decoderSignals w).matched = true →
      (decoderSignals w).kind = some (BitVec.ofNat 3 (w.toNat / 4096))) ∧
    (decoderSignals w).reg1.toNat = w.toNat / 256 % 16 ∧
    (decoderSignals w).reg2.toNat = w.toNat / 16 % 16 ∧
    (decoderSignals w).reg3.toNat = w.toNat % 16 ∧
    (decoderSignals w).value.toNat = w.toNat % 256 ∧
    (decoderSignals w).offset.toNat = w.toNat % 4096 ∧
    (decoderSignals w).idxOk = (decode w).map Instr.wellFormed

/-! ### The step and the order of its tests -/

/-- R96: when the word at the pc decodes, a step of a running machine is exec of that instruction, at the
same state; nothing is added around it. -/
def Obligations.StepRunsDecodedInstruction : Prop :=
  ∀ (s : State) (w : Word) (i : Instr),
    s.status = .running → s.imem.readWord? s.pc.toNat = some w → decode w = some i →
    step s = exec i s

/-- R118, R133: a step that begins with pc >= IMEM_LEN ends with FAULT_PC_RANGE and nothing else. -/
def Obligations.FetchBeyondMemoryFaults : Prop :=
  ∀ s : State, s.status = .running → s.imem.len.val ≤ s.pc.toNat →
    step s = .next { s with status := .faultPcRange }

/-- R52, R116: the words 0x5000..0xFFFF, and no others, fail to decode; fetching one ends the run with
STOPPED_UNKNOWN_OPCODE, no output, registers and pc unchanged. -/
def Obligations.UndefinedOpcodesStopSilently : Prop :=
  (∀ w : Word, decode w = none ↔ 0x5000 ≤ w.toNat) ∧
  (∀ (s : State) (w : Word), s.status = .running → s.imem.readWord? s.pc.toNat = some w →
    0x5000 ≤ w.toNat → step s = .next { s with status := .stoppedUnknownOpcode })

/-- R24, R96: no step is taken from a terminal status (the fault's name is the model's, log entry 8). -/
def Obligations.TerminalStatusTakesNoStep : Prop :=
  ∀ s : State, s.status ≠ .running → step s = .fault .runEnded

/-- R98, R123: pc range first, then decode, then the register indices (an overflowing strict Add with a bad
index reports the index), then the instruction's own condition (Halt's always, Add's in strict mode above
65535, Branch's below 0) and no other; a step that meets none of these leaves the machine RUNNING. -/
def Obligations.ConditionsHaveOnePriority : Prop :=
  ∀ s t : State, step s = .next t →
    (s.imem.len.val ≤ s.pc.toNat → t.status = .faultPcRange) ∧
    (∀ w, fetch s = some w → 0x5000 ≤ w.toNat → t.status = .stoppedUnknownOpcode) ∧
    (∀ i, decodedAt s = some i → i.wellFormed = false → t.status = .faultRegIndex) ∧
    (∀ i, decodedAt s = some i → i.wellFormed = true →
      t.status ≠ .faultRegIndex ∧ (t.status = .running ∨ t.status ∈ endings i)) ∧
    (decodedAt s = some .halt → t.status = .halted) ∧
    (∀ (r : Reg) value, decodedAt s = some (.load r.field value) → t.status = .running) ∧
    (∀ a b c : Reg, decodedAt s = some (.swap a.field b.field c.field) → t.status = .running) ∧
    (∀ a b c : Reg, decodedAt s = some (.add a.field b.field c.field) →
      t.status =
        if s.addOverflowFaults = true ∧ 65536 ≤ (s.readReg a).toNat + (s.readReg b).toNat
        then .faultAddOverflow else .running) ∧
    (∀ k, decodedAt s = some (.br k) →
      t.status = if s.pc.toNat + 2 < k.toNat then .faultPcRange else .running)

/-! ### Halt -/

/-- R69: HALT outputs x[0] and stops; registers and pc keep their values; the words 0x0000..0x0FFF are its
encodings and the canonical word is 0x0000. -/
def Obligations.HaltOutputsRegisterZero : Prop :=
  encode .halt = 0x0000#16 ∧ (∀ w : Word, decode w = some .halt ↔ w.toNat < 0x1000) ∧
  ∀ s : State, ∃ t, exec .halt s = .next t ∧
    t.status = .halted ∧ t.outValid = true ∧ t.outData = s.readReg .r0 ∧
    t.x = s.x ∧ t.pc = s.pc ∧ t.imem = s.imem ∧ t.addOverflowFaults = s.addOverflowFaults

/-- R25: the output changes only in a step that executes a Halt, and then holds x[0]. -/
def Obligations.OnlyHaltOutputs : Prop :=
  ∀ s t : State, step s = .next t → t.out ≠ s.out →
    decodedAt s = some .halt ∧ t.status = .halted ∧ t.outValid = true ∧ t.outData = s.readReg .r0

/-- R70: after a Halt the line a host prints is the decimal rendering of the old x[0] (unsigned,
R71). -/
def Obligations.HaltPrintsDecimal : Prop :=
  ∀ s t : State, exec .halt s = .next t → printedLine t = some (Nat.repr s.x.x0.toNat)

/-! ### Load -/

/-- R72, R73, R74: LOAD sets its register to the zero-extended immediate, advances the pc by 1, and leaves
the other registers and all other state alone. -/
def Obligations.LoadWritesZeroExtendedImmediate : Prop :=
  ∀ (r : Reg) (value : BitVec 8) (s : State), s.pc.toNat < s.imem.len.val →
    ∃ t, exec (.load r.field value) s = .next t ∧
      (t.readReg r).toNat = value.toNat ∧ (∀ q, q ≠ r → t.readReg q = s.readReg q) ∧
      t.pc.toNat = s.pc.toNat + 1 ∧ t.status = s.status ∧ t.out = s.out ∧ t.imem = s.imem ∧
      t.addOverflowFaults = s.addOverflowFaults

/-! ### Swap -/

/-- R77: pairwise distinct indices: reg1 and reg2 exchange, reg3 ends as a copy of the old reg1. -/
def Obligations.SwapDistinctExchanges : Prop :=
  ∀ (a b c : Reg) (s : State), a ≠ b → a ≠ c → b ≠ c → s.pc.toNat < s.imem.len.val →
    ∃ t, exec (.swap a.field b.field c.field) s = .next t ∧
      t.readReg a = s.readReg b ∧ t.readReg b = s.readReg a ∧ t.readReg c = s.readReg a ∧
      t.pc.toNat = s.pc.toNat + 1 ∧ t.status = s.status ∧ t.out = s.out ∧ t.imem = s.imem ∧
      t.addOverflowFaults = s.addOverflowFaults

/-- R78, every row: the result for each way the three indices can coincide; a register no field names is
unchanged; the rest of the state is unchanged but for the pc, which advances by 1. -/
def Obligations.SwapByIndexCoincidence : Prop :=
  ∀ (a b c : Reg) (s : State), s.pc.toNat < s.imem.len.val →
    ∃ t, exec (.swap a.field b.field c.field) s = .next t ∧
      (a ≠ b → a ≠ c → b ≠ c →
        t.readReg a = s.readReg b ∧ t.readReg b = s.readReg a ∧ t.readReg c = s.readReg a) ∧
      (a = b → c ≠ a → t.readReg a = s.readReg a ∧ t.readReg c = s.readReg a) ∧
      (a = c → b ≠ a → t.readReg a = s.readReg b ∧ t.readReg b = s.readReg b) ∧
      (b = c → a ≠ b → t.readReg a = s.readReg a ∧ t.readReg b = s.readReg a) ∧
      (a = b → b = c → t.readReg a = s.readReg a) ∧
      (∀ q, q ≠ a → q ≠ b → q ≠ c → t.readReg q = s.readReg q) ∧
      t.pc.toNat = s.pc.toNat + 1 ∧ t.status = s.status ∧ t.out = s.out ∧ t.imem = s.imem ∧
      t.addOverflowFaults = s.addOverflowFaults

/-- R80: a second Swap with the same distinct indices undoes the exchange; the scratch register then holds
the old reg2. -/
def Obligations.SwapTwiceUndoesExchange : Prop :=
  ∀ (a b c : Reg) (s : State), a ≠ b → a ≠ c → b ≠ c → s.pc.toNat + 1 < s.imem.len.val →
    ∃ t u, exec (.swap a.field b.field c.field) s = .next t ∧
      exec (.swap a.field b.field c.field) t = .next u ∧
      u.readReg a = s.readReg a ∧ u.readReg b = s.readReg b ∧ u.readReg c = s.readReg b ∧
      u.pc.toNat = s.pc.toNat + 2

/-- R80: a Swap creates no value: whatever a register holds after it, some register held before. -/
def Obligations.SwapCreatesNoValue : Prop :=
  ∀ (reg1 reg2 reg3 : RegField) (s t : State), exec (.swap reg1 reg2 reg3) s = .next t →
    ∀ q, ∃ p, t.readReg q = s.readReg p

/-! ### Add -/

/-- R81, R82, R84: in default mode ADD sets its destination to the sum modulo 2^16, whatever registers
coincide, raises no fault, and changes nothing else but the pc. -/
def Obligations.AddWrapsByDefault : Prop :=
  ∀ (a b c : Reg) (s : State), s.addOverflowFaults = false → s.pc.toNat < s.imem.len.val →
    ∃ t, exec (.add a.field b.field c.field) s = .next t ∧
      (t.readReg c).toNat = ((s.readReg a).toNat + (s.readReg b).toNat) % 65536 ∧
      (∀ q, q ≠ c → t.readReg q = s.readReg q) ∧
      t.pc.toNat = s.pc.toNat + 1 ∧ t.status = s.status ∧ t.out = s.out ∧ t.imem = s.imem ∧
      t.addOverflowFaults = s.addOverflowFaults

/-- R83: in strict mode an ADD whose exact sum is 65536 or more ends with FAULT_ADD_OVERFLOW and writes
nothing else; one whose exact sum is at most 65535 does what it does in default mode. -/
def Obligations.AddFaultsInStrictMode : Prop :=
  ∀ (a b c : Reg) (s : State), s.addOverflowFaults = true →
    (65536 ≤ (s.readReg a).toNat + (s.readReg b).toNat →
      exec (.add a.field b.field c.field) s = .next { s with status := .faultAddOverflow }) ∧
    ((s.readReg a).toNat + (s.readReg b).toNat ≤ 65535 → s.pc.toNat < s.imem.len.val →
      ∃ t, exec (.add a.field b.field c.field) s = .next t ∧
        exec (.add a.field b.field c.field) { s with addOverflowFaults := false } =
          .next { t with addOverflowFaults := false } ∧
        (t.readReg c).toNat = (s.readReg a).toNat + (s.readReg b).toNat ∧
        (∀ q, q ≠ c → t.readReg q = s.readReg q) ∧
        t.pc.toNat = s.pc.toNat + 1 ∧ t.status = s.status ∧ t.out = s.out ∧ t.imem = s.imem ∧
        t.addOverflowFaults = true)

/-- R85: ADD is commutative in its sources, in either mode and for every value of the three fields. -/
def Obligations.AddCommutes : Prop :=
  ∀ (reg1 reg2 reg3 : RegField) (s : State),
    exec (.add reg1 reg2 reg3) s = exec (.add reg2 reg1 reg3) s

/-! ### Branch -/

/-- R88, R90, R93: every legal offset gives the pc p + 2 - k exactly, also where the target is at or beyond
IMEM_LEN; nothing else changes. The rows of R90's table stand as clauses. -/
def Obligations.BranchTargetTable : Prop :=
  ∀ (k : BitVec 12) (s : State), s.pc.toNat < s.imem.len.val → k.toNat ≤ s.pc.toNat + 2 →
    ∃ t, exec (.br k) s = .next t ∧
      t.pc.toNat + k.toNat = s.pc.toNat + 2 ∧
      (k = 0 → t.pc.toNat = s.pc.toNat + 2) ∧
      (k = 1 → t.pc.toNat = s.pc.toNat + 1) ∧
      (2 ≤ k.toNat → t.pc.toNat = s.pc.toNat - (k.toNat - 2)) ∧
      (k.toNat = s.pc.toNat + 2 → t.pc = 0) ∧
      t.x = s.x ∧ t.status = s.status ∧ t.out = s.out ∧ t.imem = s.imem ∧
      t.addOverflowFaults = s.addOverflowFaults

/-- R89, R119: a target below 0 ends the run at the Branch with FAULT_PC_RANGE; pc, registers and output
keep their values. -/
def Obligations.BranchBelowZeroFaults : Prop :=
  ∀ (k : BitVec 12) (s : State), s.pc.toNat + 2 < k.toNat →
    exec (.br k) s = .next { s with status := .faultPcRange }

/-! ### All instructions -/

/-- R117, R53: a carried index of 3 or more, in any position, ends the run with FAULT_REG_INDEX and nothing
is read or written; Halt and Branch, which carry no index, never do. -/
def Obligations.BadRegisterIndexFaults : Prop :=
  (∀ (reg : RegField) (value : BitVec 8) (s : State), 3 ≤ reg.toNat →
    exec (.load reg value) s = .next { s with status := .faultRegIndex }) ∧
  (∀ (reg1 reg2 reg3 : RegField) (s : State),
    3 ≤ reg1.toNat ∨ 3 ≤ reg2.toNat ∨ 3 ≤ reg3.toNat →
    exec (.swap reg1 reg2 reg3) s = .next { s with status := .faultRegIndex } ∧
    exec (.add reg1 reg2 reg3) s = .next { s with status := .faultRegIndex }) ∧
  (∀ s t : State, exec .halt s = .next t → t.status ≠ .faultRegIndex) ∧
  (∀ (k : BitVec 12) (s t : State), s.status = .running → exec (.br k) s = .next t →
    t.status ≠ .faultRegIndex)

/-- R67: the check of WellFormed is the validation the machine makes: it fails exactly when the instruction
ends a running machine with FAULT_REG_INDEX. -/
def Obligations.WellFormedIsValidation : Prop :=
  ∀ (i : Instr) (s : State), s.status = .running → s.pc.toNat < s.imem.len.val →
    ∃ t, exec i s = .next t ∧ (i.wellFormed = false ↔ t.status = .faultRegIndex)

/-- R15, R25, R30, R112: the frame of all five instructions in every form: a register the instruction does
not write, the output (but for Halt), every byte and word of memory and IMEM_LEN, and the mode of Add are
unchanged; status is unchanged or one of the instruction's own ends. -/
def Obligations.InstructionFrame : Prop :=
  ∀ (i : Instr) (s t : State), exec i s = .next t →
    (∀ r, r ∉ writes i → t.readReg r = s.readReg r) ∧
    (i ≠ .halt → t.out = s.out) ∧
    (t.status = s.status ∨ t.status ∈ endings i) ∧
    (∀ a, t.imem.readByte a = s.imem.readByte a) ∧
    (∀ n, t.imem.readWord? n = s.imem.readWord? n) ∧ t.imem.len = s.imem.len ∧
    t.addOverflowFaults = s.addOverflowFaults

/-- R96, R21: inside instruction memory every instruction, in every form, answers a next state. -/
def Obligations.EveryInstructionCompletes : Prop :=
  ∀ (i : Instr) (s : State), s.pc.toNat < s.imem.len.val → ∃ t, exec i s = .next t

/-- R21, R86: no instruction is refused, and the model's own stop (log entry 9) happens only at a pc no
fetch can have succeeded at. -/
def Obligations.MeaningsStopOnlyBeyondAnyMemory : Prop :=
  ∀ (i : Instr) (s : State),
    (∀ r, exec i s ≠ .refused r) ∧
    (∀ f, exec i s = .fault f → f = .pcOverflow ∧ 65534 ≤ s.pc.toNat)

/-- R121: a step that ends the run writes only status, and out for Halt. -/
def Obligations.EndingStepIsPrecise : Prop :=
  ∀ s t : State, step s = .next t → t.status ≠ .running →
    t.x = s.x ∧ t.pc = s.pc ∧ t.imem = s.imem ∧ t.addOverflowFaults = s.addOverflowFaults ∧
    (t.status ≠ .halted → t.out = s.out)

/-- R20, R99: the pc after a step: unchanged where the run ends (Halt, decode failure, any fault), p + 2 - k
after a Branch, p + 1 after a Load, Swap or Add. -/
def Obligations.PcAfterStep : Prop :=
  ∀ s t : State, step s = .next t →
    (t.status ≠ .running → t.pc = s.pc) ∧
    (t.status = .running → ∃ i, decodedAt s = some i ∧ i ≠ .halt ∧
      (∀ k, i = .br k → k.toNat ≤ s.pc.toNat + 2 ∧ t.pc.toNat = s.pc.toNat + 2 - k.toNat) ∧
      ((∀ k, i ≠ .br k) → t.pc.toNat = s.pc.toNat + 1))

/-! ### Invariants and whole-machine rules -/

/-- R21, R25: every step keeps the invariant: canonical memory, pc at most IMEM_LEN + 1, output valid exactly
when HALTED and then x[0]. -/
def Obligations.StepKeepsInvariant : Prop :=
  ∀ s t : State, StateInv s → step s = .next t → StateInv t

/-- R102, R112, R122: whenever a step ends the run, what stands at the pc explains the status it left. -/
def Obligations.EveryEndIsExplained : Prop :=
  ∀ s t : State, step s = .next t → EndExplained t

/-- R96, R21, R86: a running machine, in any state, takes its next step: no fault or refusal of the model's
own ever stops it; and where the invariant held it holds after. -/
def Obligations.RunningMachineSteps : Prop :=
  ∀ s : State, s.status = .running → ∃ t, step s = .next t ∧ (StateInv s → StateInv t)

/-- R24, R102: a run that has ended stays as it is, for any number of further steps. -/
def Obligations.EndedRunNeverChanges : Prop :=
  ∀ (k m : Nat) (s : State), (runFor k s).ended = true → runFor (k + m) s = runFor k s

/-- R94: control flow is independent of data: in default mode, two states with the same pc, status and
program, whatever their registers and outputs, go through the same pc and status for ever. -/
def Obligations.ControlFlowIgnoresData : Prop :=
  ∀ s t : State, SameControl s t →
    ∀ k, (runFor k s).pc = (runFor k t).pc ∧ (runFor k s).status = (runFor k t).status

/-- R94, R103: in default mode a run that returns to an index it has executed before repeats that cycle for
ever: every number k of steps can be taken and leaves the machine running, and m + 1 steps later the pc is
what it was after k steps. -/
def Obligations.RevisitedPcRunsForever : Prop :=
  ∀ (m : Nat) (s t : State), s.addOverflowFaults = false →
    takeSteps (m + 1) s = .next t → t.status = .running → t.pc = s.pc →
    ∀ k, ∃ u v, takeSteps k s = .next u ∧ u.status = .running ∧
      takeSteps (k + (m + 1)) s = .next v ∧ v.status = .running ∧ v.pc = u.pc

/-- R83 over runs (property 6 of 95_test_vectors.md): strict mode only stops a run earlier. As long as no Add
has overflowed, the strict run and the default run of one program pass through the same states. -/
def Obligations.StrictModeOnlyStopsEarlier : Prop :=
  ∀ (k : Nat) (s : State),
    (runFor k { s with addOverflowFaults := true }).status ≠ .faultAddOverflow →
    runFor k { s with addOverflowFaults := false } =
      { runFor k { s with addOverflowFaults := true } with addOverflowFaults := false }

/-! ### Codes and the host's view -/

/-- R115, R23: the code each condition leaves in status; RUNNING is 0; codes 6 and 7 are never produced. -/
def Obligations.StatusCodes : Prop :=
  Cause.haltExecuted.status.code = 1 ∧ Cause.decodeFailure.status.code = 2 ∧
    Cause.registerIndexOutOfRange.status.code = 3 ∧ Cause.programCounterOutOfRange.status.code = 4 ∧
    Cause.arithmeticOverflow.status.code = 5 ∧ Status.running.code = 0 ∧
    ∀ c : Status, c.code ≠ 6 ∧ c.code ≠ 7

/-- R109: the host reads status at any time, and the output, pc and registers exactly when status is
terminal. -/
def Obligations.HostReadsOnlyEndedRuns : Prop :=
  ∀ s : State, (hostView s).status = s.status.code ∧
    (s.status = .running → (hostView s).final = none) ∧
    (s.status ≠ .running → (hostView s).final = some ⟨s.outValid, s.outData, s.pc, s.x⟩)

/-- R110: the address of the instruction port is the pc, the length on it is IMEM_LEN, and the data is the
word at that index when the index is below IMEM_LEN. That the data is absent otherwise is the model's choice
(log entry 13): R110 only calls it ignored there. -/
def Obligations.InstructionPort : Prop :=
  ∀ s : State, (blockSignals s).imemAddr = s.pc ∧
    (blockSignals s).imemLen.toNat = s.imem.len.val ∧
    ((blockSignals s).imemData = none ↔ s.imem.len.val ≤ s.pc.toNat) ∧
    (s.pc.toNat < s.imem.len.val → (blockSignals s).imemData = s.imem.readWord? s.pc.toNat)

/-- R114, R122: after a fault the failing pc, the failing word's opcode and the condition are there to read,
all of the step that faulted; after a stop there is no diagnostic. -/
def Obligations.DiagnosticNamesTheFault : Prop :=
  ∀ s t : State, step s = .next t →
    (t.status = .faultRegIndex ∨ t.status = .faultPcRange ∨ t.status = .faultAddOverflow →
      diagnostic t = some ⟨s.pc, (fetch s).map opcodeField, t.status⟩) ∧
    (t.status = .running ∨ t.status = .halted ∨ t.status = .stoppedUnknownOpcode →
      diagnostic t = none)
end

