-- ==== Sys2Proof/Laws/Decode.lean ====
section
/-!
SUPPORT. The decoder's and the encoder's fields as numbers: each field of a word is a quotient and a
remainder (30_encoding.md R47), each encoded word is a sum of its fields (R56), so that a claim about
encodings is linear arithmetic.
-/

namespace Sys2Proof

/-! ### Fields as numbers (R47) -/

theorem opcodeField_toNat (w : Word) : (opcodeField w).toNat = w.toNat / 4096 := by
  have := w.isLt
  simp only [opcodeField, BitVec.extractLsb'_toNat, Nat.shiftRight_eq_div_pow]
  omega

theorem reg1Field_toNat (w : Word) : (reg1Field w).toNat = w.toNat / 256 % 16 := by
  simp only [reg1Field, BitVec.extractLsb'_toNat, Nat.shiftRight_eq_div_pow]

theorem reg2Field_toNat (w : Word) : (reg2Field w).toNat = w.toNat / 16 % 16 := by
  simp only [reg2Field, BitVec.extractLsb'_toNat, Nat.shiftRight_eq_div_pow]

theorem reg3Field_toNat (w : Word) : (reg3Field w).toNat = w.toNat % 16 := by
  simp only [reg3Field, BitVec.extractLsb'_toNat, Nat.shiftRight_zero]

theorem valueField_toNat (w : Word) : (valueField w).toNat = w.toNat % 256 := by
  simp only [valueField, BitVec.extractLsb'_toNat, Nat.shiftRight_zero]

theorem offsetField_toNat (w : Word) : (offsetField w).toNat = w.toNat % 4096 := by
  simp only [offsetField, BitVec.extractLsb'_toNat, Nat.shiftRight_zero]

theorem lowByte_toNat (w : Word) : (lowByte w).toNat = w.toNat % 256 := by
  simp only [lowByte, BitVec.extractLsb'_toNat, Nat.shiftRight_zero]

theorem highByte_toNat (w : Word) : (highByte w).toNat = w.toNat / 256 := by
  have := w.isLt
  simp only [highByte, BitVec.extractLsb'_toNat, Nat.shiftRight_eq_div_pow]
  omega

theorem wordOfBytes_toNat (lo hi : Byte) : (wordOfBytes lo hi).toNat = 256 * hi.toNat + lo.toNat := by
  simp only [wordOfBytes, BitVec.toNat_append]
  rw [← Nat.shiftLeft_add_eq_or_of_lt lo.isLt, Nat.shiftLeft_eq]
  omega

/-! ### A word and its two halves -/

@[simp] theorem lowByte_wordOfBytes (lo hi : Byte) : lowByte (wordOfBytes lo hi) = lo := by
  apply BitVec.eq_of_toNat_eq
  have := lo.isLt
  rw [lowByte_toNat, wordOfBytes_toNat]
  omega

@[simp] theorem highByte_wordOfBytes (lo hi : Byte) : highByte (wordOfBytes lo hi) = hi := by
  apply BitVec.eq_of_toNat_eq
  have := lo.isLt
  rw [highByte_toNat, wordOfBytes_toNat]
  omega

@[simp] theorem wordOfBytes_halves (w : Word) : wordOfBytes (lowByte w) (highByte w) = w := by
  apply BitVec.eq_of_toNat_eq
  rw [wordOfBytes_toNat, lowByte_toNat, highByte_toNat]
  omega

theorem wordOfBytes_inj {a b c d : Byte} (h : wordOfBytes a b = wordOfBytes c d) : a = c ∧ b = d :=
  ⟨by simpa using congrArg lowByte h, by simpa using congrArg highByte h⟩

/-! ### Encoded words as sums (R56, R58) -/

/-- Setting high bits above a number that does not reach them adds them. -/
theorem or_add_of_lt {w : Nat} {a b : BitVec w} {i : Nat} (hb : b.toNat < 2 ^ i)
    (ha : 2 ^ i ∣ a.toNat) : (a ||| b).toNat = a.toNat + b.toNat := by
  obtain ⟨q, hq⟩ := ha
  rw [BitVec.toNat_or, hq, ← Nat.two_pow_add_eq_or_of_lt hb]

theorem encode_load_toNat (reg : RegField) (value : BitVec 8) :
    (encode (.load reg value)).toNat = 4096 + 256 * reg.toNat + value.toNat := by
  have h1 := reg.isLt
  have h2 := value.isLt
  have hr : (reg.setWidth 16 <<< 8).toNat = 256 * reg.toNat := by
    simp only [BitVec.toNat_shiftLeft, BitVec.toNat_setWidth, Nat.shiftLeft_eq]; omega
  have hv : (value.setWidth 16).toNat = value.toNat := by
    simp only [BitVec.toNat_setWidth]; omega
  have hs : (0x1000#16 ||| reg.setWidth 16 <<< 8).toNat = 4096 + 256 * reg.toNat := by
    rw [or_add_of_lt (i := 12) (by omega) (by decide), hr]; rfl
  rw [encode, or_add_of_lt (i := 8) (by omega) (by omega), hs, hv]

theorem encode_regs_toNat (op : Word) (reg1 reg2 reg3 : RegField) (hop : 4096 ∣ op.toNat) :
    (op ||| (reg1.setWidth 16 <<< 8) ||| (reg2.setWidth 16 <<< 4) ||| reg3.setWidth 16).toNat =
      op.toNat + 256 * reg1.toNat + 16 * reg2.toNat + reg3.toNat := by
  have h1 := reg1.isLt
  have h2 := reg2.isLt
  have h3 := reg3.isLt
  have e1 : (reg1.setWidth 16 <<< 8).toNat = 256 * reg1.toNat := by
    simp only [BitVec.toNat_shiftLeft, BitVec.toNat_setWidth, Nat.shiftLeft_eq]; omega
  have e2 : (reg2.setWidth 16 <<< 4).toNat = 16 * reg2.toNat := by
    simp only [BitVec.toNat_shiftLeft, BitVec.toNat_setWidth, Nat.shiftLeft_eq]; omega
  have e3 : (reg3.setWidth 16).toNat = reg3.toNat := by
    simp only [BitVec.toNat_setWidth]; omega
  have s1 : (op ||| reg1.setWidth 16 <<< 8).toNat = op.toNat + 256 * reg1.toNat := by
    rw [or_add_of_lt (i := 12) (by omega) hop, e1]
  have s2 : (op ||| reg1.setWidth 16 <<< 8 ||| reg2.setWidth 16 <<< 4).toNat =
      op.toNat + 256 * reg1.toNat + 16 * reg2.toNat := by
    rw [or_add_of_lt (i := 8) (by omega) (by omega), s1, e2]
  rw [or_add_of_lt (i := 4) (by omega) (by omega), s2, e3]

theorem encode_swap_toNat (reg1 reg2 reg3 : RegField) :
    (encode (.swap reg1 reg2 reg3)).toNat =
      8192 + 256 * reg1.toNat + 16 * reg2.toNat + reg3.toNat :=
  encode_regs_toNat 0x2000#16 reg1 reg2 reg3 (by decide)

theorem encode_add_toNat (reg1 reg2 reg3 : RegField) :
    (encode (.add reg1 reg2 reg3)).toNat =
      12288 + 256 * reg1.toNat + 16 * reg2.toNat + reg3.toNat :=
  encode_regs_toNat 0x3000#16 reg1 reg2 reg3 (by decide)

theorem encode_br_toNat (offset : BitVec 12) :
    (encode (.br offset)).toNat = 16384 + offset.toNat := by
  have h1 := offset.isLt
  have hv : (offset.setWidth 16).toNat = offset.toNat := by
    simp only [BitVec.toNat_setWidth]; omega
  rw [encode, or_add_of_lt (i := 12) (by omega) (by decide), hv]; rfl

/-! ### The decoder by the word's number (R50) -/

/-- The decoder's case split, said once: which range a word lies in and what it then decodes to. -/
theorem decode_cases (w : Word) :
    (w.toNat < 0x1000 ∧ decode w = some .halt) ∨
    (0x1000 ≤ w.toNat ∧ w.toNat < 0x2000 ∧ decode w = some (.load (reg1Field w) (valueField w))) ∨
    (0x2000 ≤ w.toNat ∧ w.toNat < 0x3000 ∧
      decode w = some (.swap (reg1Field w) (reg2Field w) (reg3Field w))) ∨
    (0x3000 ≤ w.toNat ∧ w.toNat < 0x4000 ∧
      decode w = some (.add (reg1Field w) (reg2Field w) (reg3Field w))) ∨
    (0x4000 ≤ w.toNat ∧ w.toNat < 0x5000 ∧ decode w = some (.br (offsetField w))) ∨
    (0x5000 ≤ w.toNat ∧ decode w = none) := by
  unfold decode
  rw [opcodeField_toNat]
  split
  all_goals
    simp only [Option.some.injEq, reduceCtorEq, and_true, and_false, or_false, false_or]
  case h_6 h0 h1 h2 h3 h4 =>
    simp only [imp_false] at h0 h1 h2 h3 h4
    omega
  all_goals omega

/-! ### Validation as inequalities (R67) -/

@[simp] theorem wellFormed_halt : Instr.halt.wellFormed = true := rfl

@[simp] theorem wellFormed_br (offset : BitVec 12) : (Instr.br offset).wellFormed = true := rfl

theorem wellFormed_load_iff (reg : RegField) (value : BitVec 8) :
    (Instr.load reg value).wellFormed = true ↔ reg.toNat < 3 := decide_eq_true_iff

theorem wellFormed_swap_iff (reg1 reg2 reg3 : RegField) :
    (Instr.swap reg1 reg2 reg3).wellFormed = true ↔
      reg1.toNat < 3 ∧ reg2.toNat < 3 ∧ reg3.toNat < 3 := by
  simp only [Instr.wellFormed, Bool.and_eq_true, decide_eq_true_eq, and_assoc]
  rfl

theorem wellFormed_add_iff (reg1 reg2 reg3 : RegField) :
    (Instr.add reg1 reg2 reg3).wellFormed = true ↔
      reg1.toNat < 3 ∧ reg2.toNat < 3 ∧ reg3.toNat < 3 := by
  simp only [Instr.wellFormed, Bool.and_eq_true, decide_eq_true_eq, and_assoc]
  rfl

end Sys2Proof
end

