-- ==== Sys2Proof/Laws/Memory.lean ====
section
/-!
SUPPORT. The laws of memory: read after write of a cell and of a word, every operation keeps the canonical
form, equal contents are equal data, and the host's supply of a program reads back.
-/

namespace Sys2Proof

namespace Machine

/-! ### Cells -/

/-- Nothing is listed below the first address a cell may have. -/
theorem readCells_below {l : List Host.Cell} {lo hi q : Nat} (h : cellsWf lo hi l = true)
    (hq : q < lo) : readCells l q = Config.unlistedByte := by
  induction l generalizing lo with
  | nil => rfl
  | cons c t ih =>
    obtain ⟨k, b⟩ := c
    simp only [cellsWf, Bool.and_eq_true, decide_eq_true_eq] at h
    simp only [readCells, if_neg (show k ≠ q by omega)]
    exact ih h.2 (by omega)

/-- Nothing is listed at or above the bound on the addresses. -/
theorem readCells_above {l : List Host.Cell} {lo hi q : Nat} (h : cellsWf lo hi l = true)
    (hq : hi ≤ q) : readCells l q = Config.unlistedByte := by
  induction l generalizing lo with
  | nil => rfl
  | cons c t ih =>
    obtain ⟨k, b⟩ := c
    simp only [cellsWf, Bool.and_eq_true, decide_eq_true_eq] at h
    simp only [readCells, if_neg (show k ≠ q by omega)]
    exact ih h.2

/-- A lower bound on the addresses may be lowered. -/
theorem cellsWf_mono {l : List Host.Cell} {lo lo' hi hi' : Nat} (h : cellsWf lo hi l = true)
    (hl : lo' ≤ lo) (hh : hi ≤ hi') : cellsWf lo' hi' l = true := by
  induction l generalizing lo lo' with
  | nil => rfl
  | cons c t ih =>
    obtain ⟨k, b⟩ := c
    simp only [cellsWf, Bool.and_eq_true, decide_eq_true_eq] at h ⊢
    exact ⟨⟨⟨by omega, by omega⟩, h.1.2⟩, ih h.2 (Nat.le_refl _)⟩

/-- Read after a cell write: the value written there, the old value everywhere else. -/
theorem readCells_writeCells {l : List Host.Cell} {lo hi : Nat} (h : cellsWf lo hi l = true)
    (a : Nat) (v : Byte) (q : Nat) :
    readCells (writeCells l a v) q = if q = a then v else readCells l q := by
  induction l generalizing lo with
  | nil =>
    simp only [writeCells]
    by_cases hq : q = a
    · split <;> simp_all [readCells]
    · split <;> simp [readCells, Ne.symm hq]
  | cons c t ih =>
    obtain ⟨k, b⟩ := c
    simp only [cellsWf, Bool.and_eq_true, decide_eq_true_eq] at h
    have below : ∀ q ≤ k, readCells t q = Config.unlistedByte := fun q hq =>
      readCells_below h.2 (by omega)
    simp only [writeCells]
    split
    · simp only [readCells, ih h.2]
      split
      · rw [if_neg (by omega)]
      · rfl
    · split
      · next hka =>
        subst hka
        split
        · next hv =>
          split
          · next hq => rw [hq, hv]; exact below k (Nat.le_refl _)
          · next hq => simp [readCells, if_neg (Ne.symm hq)]
        · simp only [readCells, eq_comm (a := k)]
          split <;> rfl
      · split
        · next hv =>
          simp only [readCells]
          split
          · rw [if_neg (by omega)]
          · split
            · next hq => rw [hq, hv]; exact below a (by omega)
            · rfl
        · simp only [readCells, eq_comm (a := a)]

/-- A cell write inside the bounds keeps the canonical form. -/
theorem cellsWf_writeCells {l : List Host.Cell} {lo hi a : Nat} (h : cellsWf lo hi l = true)
    (v : Byte) (hl : lo ≤ a) (hh : a < hi) : cellsWf lo hi (writeCells l a v) = true := by
  induction l generalizing lo with
  | nil =>
    simp only [writeCells]
    split <;> simp_all [cellsWf]
  | cons c t ih =>
    obtain ⟨k, b⟩ := c
    simp only [cellsWf, Bool.and_eq_true, decide_eq_true_eq] at h
    obtain ⟨⟨⟨h1, h2⟩, h3⟩, h4⟩ := h
    simp only [writeCells]
    split
    · next hka =>
      simp only [cellsWf, Bool.and_eq_true, decide_eq_true_eq]
      exact ⟨⟨⟨h1, h2⟩, h3⟩, ih h4 (by omega)⟩
    · split
      · next hka =>
        subst hka
        split
        · exact cellsWf_mono h4 (by omega) (Nat.le_refl _)
        · next hv =>
          simp only [cellsWf, Bool.and_eq_true, decide_eq_true_eq]
          exact ⟨⟨⟨hl, hh⟩, hv⟩, h4⟩
      · split
        · simp only [cellsWf, Bool.and_eq_true, decide_eq_true_eq]
          exact ⟨⟨⟨h1, h2⟩, h3⟩, h4⟩
        · next hv =>
          simp only [cellsWf, Bool.and_eq_true, decide_eq_true_eq]
          exact ⟨⟨⟨hl, hh⟩, hv⟩, ⟨⟨⟨by omega, h2⟩, h3⟩, h4⟩⟩

/-- Cell lists in canonical form that read the same everywhere are the same list. -/
theorem cells_ext {l m : List Host.Cell} {lo hi hi' : Nat} (hl : cellsWf lo hi l = true)
    (hm : cellsWf lo hi' m = true) (h : ∀ q, readCells l q = readCells m q) : l = m := by
  induction l generalizing lo m with
  | nil =>
    cases m with
    | nil => rfl
    | cons c t =>
      obtain ⟨k, b⟩ := c
      simp only [cellsWf, Bool.and_eq_true, decide_eq_true_eq] at hm
      have := h k
      simp only [readCells] at this
      exact absurd this.symm hm.1.2
  | cons c t ih =>
    obtain ⟨k, b⟩ := c
    simp only [cellsWf, Bool.and_eq_true, decide_eq_true_eq] at hl
    cases m with
    | nil =>
      have := h k
      simp only [readCells] at this
      exact absurd this hl.1.2
    | cons d u =>
      obtain ⟨k', b'⟩ := d
      simp only [cellsWf, Bool.and_eq_true, decide_eq_true_eq] at hm
      have hk : k = k' := by
        rcases Nat.lt_trichotomy k k' with hlt | heq | hgt
        · have := h k
          simp only [readCells, if_neg (show k' ≠ k by omega)] at this
          rw [readCells_below hm.2 (by omega)] at this
          exact absurd this hl.1.2
        · exact heq
        · have := h k'
          simp only [readCells, if_neg (show k ≠ k' by omega)] at this
          rw [readCells_below hl.2 (by omega)] at this
          exact absurd this.symm hm.1.2
      subst hk
      have hb : b = b' := by simpa [readCells] using h k
      subst hb
      have ht : t = u := by
        refine ih hl.2 hm.2 fun q => ?_
        by_cases hq : k = q
        · rw [← hq, readCells_below hl.2 (by omega), readCells_below hm.2 (by omega)]
        · simpa [readCells, hq] using h q
      rw [ht]

/-! ### Words -/

@[simp] theorem toLen_val {n : Nat} (h : n ≤ 65534) : (toLen n).val = n := Nat.min_eq_left h

theorem Memory.len_le (m : Memory) : m.len.val ≤ 65534 := Nat.le_of_lt_succ m.len.isLt

/-- The length of a memory after the host placed a word at index n. -/
theorem Memory.placeWord_len (m : Memory) {n : Nat} (h : n < 65534) (w : Word) :
    (m.placeWord n w).len.val = max m.len.val (n + 1) := by
  have := m.len_le
  rw [Memory.placeWord, if_pos h]
  exact toLen_val (by omega)

/-- The host's placing of a word keeps the canonical form. -/
theorem Memory.placeWord_wf {m : Memory} (h : m.wf = true) (n : Nat) (w : Word) :
    (m.placeWord n w).wf = true := by
  by_cases hn : n < 65534
  · have hlen := m.placeWord_len hn w
    rw [Memory.wf, hlen, Memory.placeWord, if_pos hn]
    exact cellsWf_writeCells
      (cellsWf_writeCells (cellsWf_mono h (Nat.le_refl _) (by omega)) _ (by omega) (by omega)) _
      (by omega) (by omega)
  · rwa [Memory.placeWord, if_neg hn]

/-- The cells of a memory after the host placed a word at index n. -/
theorem Memory.placeWord_readByte {m : Memory} (h : m.wf = true) {n : Nat} (hn : n < 65534) (w : Word)
    (q : Nat) :
    (m.placeWord n w).readByte q =
      if q = 2 * n + 1 then highByte w else if q = 2 * n then lowByte w else m.readByte q := by
  have h' : cellsWf 0 (2 * max m.len.val (n + 1)) m.cells = true :=
    cellsWf_mono h (Nat.le_refl _) (by omega)
  rw [Memory.readByte, Memory.placeWord, if_pos hn]
  simp only
  rw [readCells_writeCells (cellsWf_writeCells h' (lowByte w) (by omega) (by omega)),
    readCells_writeCells h']
  rfl

/-- Read after the host placed a word at index n: that word there, every other index as before, but that
an index the memory grew over to reach n holds the word of two unlisted cells. -/
theorem Memory.placeWord_readWord {m : Memory} (h : m.wf = true) {n : Nat} (hn : n < 65534) (w : Word)
    (q : Nat) :
    (m.placeWord n w).readWord? q =
      if q = n then some w
      else if q < max m.len.val (n + 1) then
        some (wordOfBytes (m.readByte (2 * q)) (m.readByte (2 * q + 1)))
      else none := by
  simp only [Memory.readWord?, m.placeWord_len hn, Memory.placeWord_readByte h hn]
  by_cases hq : q = n
  · subst hq
    simp
  · rw [if_neg hq, if_neg (show ¬ 2 * q = 2 * n + 1 by omega), if_neg (show ¬ 2 * q = 2 * n by omega),
      if_neg (show ¬ 2 * q + 1 = 2 * n + 1 by omega), if_neg (show ¬ 2 * q + 1 = 2 * n by omega)]

/-- The word placed is the word read. -/
theorem Memory.readWord_placeWord_same {m : Memory} (h : m.wf = true) {n : Nat} (hn : n < 65534)
    (w : Word) : (m.placeWord n w).readWord? n = some w := by
  rw [Memory.placeWord_readWord h hn, if_pos rfl]

/-- A word is read exactly below IMEM_LEN (R32). -/
theorem Memory.readWord_eq_none_iff (m : Memory) (n : Nat) :
    m.readWord? n = none ↔ m.len.val ≤ n := by
  unfold Memory.readWord?
  split <;> simp <;> omega

/-- Placing a sequence of words at the end of a memory appends it: length and contents. -/
theorem Memory.placeWords_append (ws : List Word) {m : Memory} (h : m.wf = true)
    (hlen : m.len.val + ws.length ≤ 65534) :
    (m.placeWords m.len.val ws).wf = true ∧
      (m.placeWords m.len.val ws).len.val = m.len.val + ws.length ∧
      ∀ q, (m.placeWords m.len.val ws).readWord? q =
        if q < m.len.val then m.readWord? q else ws[q - m.len.val]? := by
  induction ws generalizing m with
  | nil =>
    refine ⟨h, rfl, fun q => ?_⟩
    simp only [Memory.placeWords]
    split
    · rfl
    · next hq => simpa using (m.readWord_eq_none_iff q).mpr (by omega)
  | cons w ws ih =>
    simp only [List.length_cons] at hlen
    have hn : m.len.val < 65534 := by omega
    have hl : (m.placeWord m.len.val w).len.val = m.len.val + 1 := by
      rw [m.placeWord_len hn]; omega
    obtain ⟨h1, h2, h3⟩ := ih (Memory.placeWord_wf h m.len.val w) (by omega)
    rw [hl] at h1 h2 h3
    refine ⟨h1, ?_, fun q => ?_⟩
    · simp only [Memory.placeWords, List.length_cons]
      omega
    · simp only [Memory.placeWords]
      rw [h3, Memory.placeWord_readWord h hn]
      rcases Nat.lt_trichotomy q m.len.val with hq | hq | hq
      · rw [if_pos (by omega), if_neg (by omega), if_pos (by omega), if_pos hq, Memory.readWord?,
          if_pos hq]
      · subst hq
        simp
      · rw [if_neg (by omega), if_neg (by omega), show q - m.len.val = q - (m.len.val + 1) + 1 by omega]
        rfl

/-- The memory made of a program holds exactly its words, in canonical form. -/
theorem Memory.ofWords_spec {ws : List Word} (h : ws.length ≤ 65534) :
    (Memory.ofWords ws).wf = true ∧ (Memory.ofWords ws).len.val = ws.length ∧
      ∀ q, (Memory.ofWords ws).readWord? q = ws[q]? := by
  have := Memory.placeWords_append ws (m := { len := 0, cells := [] }) rfl (by simpa using h)
  simpa [Memory.ofWords] using this

/-- The reset memory is in canonical form. -/
theorem reset_imem_wf : State.reset.imem.wf = true := rfl

end Machine
end Sys2Proof
end

