-- ==== Sys2Proof/Laws/State.lean ====
section
/-!
SUPPORT. One lemma per field per update of State, so that no later proof unfolds a record update; the
register file's read after write; what reset and the host's placing of a word leave.
-/

namespace Sys2Proof.Machine

/-! ### Register file -/

@[simp] theorem RegFile.read_write_same (x : RegFile) (r : Reg) (v : Word) :
    (x.write r v).read r = v := by
  cases r <;> rfl

theorem RegFile.read_write_other (x : RegFile) {r q : Reg} (h : q ≠ r) (v : Word) :
    (x.write r v).read q = x.read q := by
  cases r <;> cases q <;> first | rfl | exact absurd rfl h

theorem RegFile.read_write (x : RegFile) (r q : Reg) (v : Word) :
    (x.write r v).read q = if q = r then v else x.read q := by
  split
  · next h => subst h; simp
  · next h => exact RegFile.read_write_other x h v

/-- Two register files with the same three values are equal. -/
theorem RegFile.ext_read {x y : RegFile} (h : ∀ r, x.read r = y.read r) : x = y := by
  have h0 := h .r0
  have h1 := h .r1
  have h2 := h .r2
  cases x; cases y
  simp_all [RegFile.read]

/-! ### One lemma per field per update -/

@[simp] theorem State.setReg_x (s : State) (r : Reg) (v : Word) :
    (s.setReg r v).x = s.x.write r v := rfl

@[simp] theorem State.setReg_pc (s : State) (r : Reg) (v : Word) :
    (s.setReg r v).pc = s.pc := rfl

@[simp] theorem State.setReg_status (s : State) (r : Reg) (v : Word) :
    (s.setReg r v).status = s.status := rfl

@[simp] theorem State.setReg_out (s : State) (r : Reg) (v : Word) :
    (s.setReg r v).out = s.out := rfl

@[simp] theorem State.setReg_imem (s : State) (r : Reg) (v : Word) :
    (s.setReg r v).imem = s.imem := rfl

@[simp] theorem State.setReg_addOverflowFaults (s : State) (r : Reg) (v : Word) :
    (s.setReg r v).addOverflowFaults = s.addOverflowFaults := rfl

@[simp] theorem State.writePc_x (s : State) (v : Word) :
    (s.writePc v).x = s.x := rfl

@[simp] theorem State.writePc_pc (s : State) (v : Word) :
    (s.writePc v).pc = v := rfl

@[simp] theorem State.writePc_status (s : State) (v : Word) :
    (s.writePc v).status = s.status := rfl

@[simp] theorem State.writePc_out (s : State) (v : Word) :
    (s.writePc v).out = s.out := rfl

@[simp] theorem State.writePc_imem (s : State) (v : Word) :
    (s.writePc v).imem = s.imem := rfl

@[simp] theorem State.writePc_addOverflowFaults (s : State) (v : Word) :
    (s.writePc v).addOverflowFaults = s.addOverflowFaults := rfl

@[simp] theorem State.setStatus_x (s : State) (c : Status) :
    (s.setStatus c).x = s.x := rfl

@[simp] theorem State.setStatus_pc (s : State) (c : Status) :
    (s.setStatus c).pc = s.pc := rfl

@[simp] theorem State.setStatus_status (s : State) (c : Status) :
    (s.setStatus c).status = c := rfl

@[simp] theorem State.setStatus_out (s : State) (c : Status) :
    (s.setStatus c).out = s.out := rfl

@[simp] theorem State.setStatus_imem (s : State) (c : Status) :
    (s.setStatus c).imem = s.imem := rfl

@[simp] theorem State.setStatus_addOverflowFaults (s : State) (c : Status) :
    (s.setStatus c).addOverflowFaults = s.addOverflowFaults := rfl

@[simp] theorem State.emit_x (s : State) (v : Word) :
    (s.emit v).x = s.x := rfl

@[simp] theorem State.emit_pc (s : State) (v : Word) :
    (s.emit v).pc = s.pc := rfl

@[simp] theorem State.emit_status (s : State) (v : Word) :
    (s.emit v).status = s.status := rfl

@[simp] theorem State.emit_out (s : State) (v : Word) :
    (s.emit v).out = some v := rfl

@[simp] theorem State.emit_imem (s : State) (v : Word) :
    (s.emit v).imem = s.imem := rfl

@[simp] theorem State.emit_addOverflowFaults (s : State) (v : Word) :
    (s.emit v).addOverflowFaults = s.addOverflowFaults := rfl

/-! ### Reads of a register after an update -/

@[simp] theorem State.setReg_readReg_same (s : State) (r : Reg) (v : Word) :
    (s.setReg r v).readReg r = v := RegFile.read_write_same s.x r v

theorem State.setReg_readReg (s : State) (r q : Reg) (v : Word) :
    (s.setReg r v).readReg q = if q = r then v else s.readReg q := RegFile.read_write s.x r q v

@[simp] theorem State.writePc_readReg (s : State) (v : Word) (r : Reg) :
    (s.writePc v).readReg r = s.readReg r := rfl

@[simp] theorem State.setStatus_readReg (s : State) (c : Status) (r : Reg) :
    (s.setStatus c).readReg r = s.readReg r := rfl

@[simp] theorem State.emit_readReg (s : State) (v : Word) (r : Reg) :
    (s.emit v).readReg r = s.readReg r := rfl

/-! ### Reset and the host's placing of a word -/

@[simp] theorem assertReset_x (s : State) :
    (assertReset s).x = State.reset.x := rfl

@[simp] theorem assertReset_pc (s : State) :
    (assertReset s).pc = State.reset.pc := rfl

@[simp] theorem assertReset_status (s : State) :
    (assertReset s).status = State.reset.status := rfl

@[simp] theorem assertReset_out (s : State) :
    (assertReset s).out = State.reset.out := rfl

@[simp] theorem assertReset_imem (s : State) :
    (assertReset s).imem = s.imem := rfl

@[simp] theorem assertReset_addOverflowFaults (s : State) :
    (assertReset s).addOverflowFaults = s.addOverflowFaults := rfl

@[simp] theorem State.withFetchWord_x (s : State) (nbits w : Nat) :
    (s.withFetchWord nbits w).x = s.x := rfl

@[simp] theorem State.withFetchWord_pc (s : State) (nbits w : Nat) :
    (s.withFetchWord nbits w).pc = s.pc := rfl

@[simp] theorem State.withFetchWord_status (s : State) (nbits w : Nat) :
    (s.withFetchWord nbits w).status = .running := rfl

@[simp] theorem State.withFetchWord_out (s : State) (nbits w : Nat) :
    (s.withFetchWord nbits w).out = s.out := rfl

@[simp] theorem State.withFetchWord_imem (s : State) (nbits w : Nat) :
    (s.withFetchWord nbits w).imem = s.imem.placeWord s.pc.toNat (tableWord nbits w) := rfl

@[simp] theorem State.withFetchWord_addOverflowFaults (s : State) (nbits w : Nat) :
    (s.withFetchWord nbits w).addOverflowFaults = s.addOverflowFaults := rfl

end Sys2Proof.Machine
end

