-- ==== Sys2Proof/Laws/Ops.lean ====
section
/-!
SUPPORT. What each shared operation can do, said once: naming a register, validating indices, writing the
pc, the arms of exec, and a step. Later proofs cite these and unfold none of the operations.
-/

namespace Sys2Proof.Machine

/-! ### Register indices (R16, R67) -/

@[simp] theorem regOf_field (r : Reg) : regOf r.field = some r := by cases r <;> rfl

theorem Reg.field_toNat_lt (r : Reg) : r.field.toNat < 3 := by cases r <;> decide

theorem Reg.field_inj {r q : Reg} : r.field = q.field ↔ r = q := by
  cases r <;> cases q <;> decide

/-- A field below 3 names exactly one register. -/
theorem regOf_eq_some_iff {f : RegField} {r : Reg} : regOf f = some r ↔ f = r.field := by
  cases r <;> (revert f; decide)

/-- A field names no register exactly when it is 3 or more. -/
theorem regOf_eq_none_iff {f : RegField} : regOf f = none ↔ 3 ≤ f.toNat := by
  revert f; decide

theorem exists_reg_of_lt {f : RegField} (h : f.toNat < 3) : ∃ r : Reg, f = r.field := by
  cases hr : regOf f with
  | none => exact absurd (regOf_eq_none_iff.mp hr) (by omega)
  | some r => exact ⟨r, regOf_eq_some_iff.mp hr⟩

/-! ### Validation -/

@[simp] theorem withReg_field (r : Reg) (s : State) (body : Reg → Result) :
    withReg r.field s body = body r := by simp [withReg]

theorem withReg_bad {f : RegField} (h : 3 ≤ f.toNat) (s : State) (body : Reg → Result) :
    withReg f s body = .next (s.setStatus .faultRegIndex) := by
  rw [withReg, regOf_eq_none_iff.mpr h]; rfl

@[simp] theorem withRegs_field (a b c : Reg) (s : State) (body : Reg → Reg → Reg → Result) :
    withRegs a.field b.field c.field s body = body a b c := by simp [withRegs]

theorem withRegs_bad {f1 f2 f3 : RegField} (h : 3 ≤ f1.toNat ∨ 3 ≤ f2.toNat ∨ 3 ≤ f3.toNat)
    (s : State) (body : Reg → Reg → Reg → Result) :
    withRegs f1 f2 f3 s body = .next (s.setStatus .faultRegIndex) := by
  unfold withRegs
  split
  · next h1 h2 h3 =>
    rw [regOf_eq_some_iff] at h1 h2 h3
    subst h1 h2 h3
    have := Reg.field_toNat_lt
    simp only [← not_lt, this, not_true, or_self] at h
  · rfl

/-- Either a field names a register, or it is 3 or more. -/
theorem field_cases (f : RegField) : (∃ r : Reg, f = r.field) ∨ 3 ≤ f.toNat := by
  by_cases h : f.toNat < 3
  · exact .inl (exists_reg_of_lt h)
  · exact .inr (by omega)

/-- Either three fields name registers, or one of them is 3 or more. -/
theorem fields_cases (f1 f2 f3 : RegField) :
    (∃ a b c : Reg, f1 = a.field ∧ f2 = b.field ∧ f3 = c.field) ∨
      (3 ≤ f1.toNat ∨ 3 ≤ f2.toNat ∨ 3 ≤ f3.toNat) := by
  rcases field_cases f1 with ⟨a, ha⟩ | h
  · rcases field_cases f2 with ⟨b, hb⟩ | h
    · rcases field_cases f3 with ⟨c, hc⟩ | h
      · exact .inl ⟨a, b, c, ha, hb, hc⟩
      · exact .inr (.inr (.inr h))
    · exact .inr (.inr (.inl h))
  · exact .inr (.inl h)

/-! ### The pc -/

theorem setPc_of_lt {n : Nat} (h : n < 65536) (s : State) :
    setPc n s = .next (s.writePc (BitVec.ofNat 16 n)) := if_pos h

/-- If a pc write answers a next state, the value fits and only the pc changed. -/
theorem setPc_next {n : Nat} {s t : State} (h : setPc n s = .next t) :
    n < 65536 ∧ t = s.writePc (BitVec.ofNat 16 n) := by
  unfold setPc at h
  split at h
  · next hn => exact ⟨hn, (Host.Outcome.next.inj h).symm⟩
  · cases h

/-- A pc inside any instruction memory leaves room for every target of R21. -/
theorem pc_add_two_lt {s : State} (h : s.pc.toNat < s.imem.len.val) : s.pc.toNat + 2 < 65536 := by
  have := s.imem.len_le
  omega

theorem ofNat_toNat_of_lt {n : Nat} (h : n < 65536) : (BitVec.ofNat 16 n).toNat = n := by
  rw [BitVec.toNat_ofNat]; exact Nat.mod_eq_of_lt h

/-! ### The adder (R81) -/

theorem sumOverflows_iff (u v : Word) : sumOverflows u v = true ↔ 65535 < u.toNat + v.toNat := by
  unfold sumOverflows exactSum
  exact decide_eq_true_iff

theorem wrappedSum_toNat (u v : Word) : (wrappedSum u v).toNat = (u.toNat + v.toNat) % 65536 := by
  simp [wrappedSum, exactSum]

/-! ### The meanings: what each answers when it answers a next state -/

theorem execHalt_eq (s : State) :
    execHalt s = .next ((s.emit (s.readReg .r0)).setStatus .halted) := rfl

theorem execLoad_next {reg : RegField} {value : BitVec 8} {s t : State}
    (h : execLoad reg value s = .next t) :
    (∃ r : Reg, reg = r.field ∧ s.pc.toNat + 1 < 65536 ∧
      t = (s.setReg r (zext16 value)).writePc (BitVec.ofNat 16 (s.pc.toNat + 1))) ∨
    (3 ≤ reg.toNat ∧ t = s.setStatus .faultRegIndex) := by
  rcases field_cases reg with ⟨r, rfl⟩ | hbad
  · rw [execLoad, withReg_field] at h
    exact .inl ⟨r, rfl, setPc_next h⟩
  · rw [execLoad, withReg_bad hbad] at h
    exact .inr ⟨hbad, (Host.Outcome.next.inj h).symm⟩

@[simp] theorem rotate_pc (a b c : Reg) (s : State) : (rotate a b c s).pc = s.pc := rfl
@[simp] theorem rotate_status (a b c : Reg) (s : State) : (rotate a b c s).status = s.status := rfl
@[simp] theorem rotate_out (a b c : Reg) (s : State) : (rotate a b c s).out = s.out := rfl
@[simp] theorem rotate_imem (a b c : Reg) (s : State) : (rotate a b c s).imem = s.imem := rfl
@[simp] theorem rotate_addOverflowFaults (a b c : Reg) (s : State) :
    (rotate a b c s).addOverflowFaults = s.addOverflowFaults := rfl

/-- The three live writes as one table of values: reg2 holds what the scratch register then held. -/
theorem rotate_readReg (a b c q : Reg) (s : State) :
    (rotate a b c s).readReg q =
      if q = b then (if c = a then (if b = c then s.readReg a else s.readReg b) else s.readReg a)
      else if q = a then (if b = c then s.readReg a else s.readReg b)
      else if q = c then s.readReg a
      else s.readReg q := by
  simp only [rotate, State.setReg_readReg, if_pos]

theorem execSwap_next {reg1 reg2 reg3 : RegField} {s t : State}
    (h : execSwap reg1 reg2 reg3 s = .next t) :
    (∃ a b c : Reg, (reg1 = a.field ∧ reg2 = b.field ∧ reg3 = c.field) ∧ s.pc.toNat + 1 < 65536 ∧
      t = (rotate a b c s).writePc (BitVec.ofNat 16 (s.pc.toNat + 1))) ∨
    ((3 ≤ reg1.toNat ∨ 3 ≤ reg2.toNat ∨ 3 ≤ reg3.toNat) ∧ t = s.setStatus .faultRegIndex) := by
  rcases fields_cases reg1 reg2 reg3 with ⟨a, b, c, rfl, rfl, rfl⟩ | hbad
  · rw [execSwap, withRegs_field] at h
    exact .inl ⟨a, b, c, ⟨rfl, rfl, rfl⟩, setPc_next h⟩
  · rw [execSwap, withRegs_bad hbad] at h
    exact .inr ⟨hbad, (Host.Outcome.next.inj h).symm⟩

theorem execAdd_next {reg1 reg2 reg3 : RegField} {s t : State}
    (h : execAdd reg1 reg2 reg3 s = .next t) :
    (∃ a b c : Reg, (reg1 = a.field ∧ reg2 = b.field ∧ reg3 = c.field) ∧
      ((s.addOverflowFaults = true ∧ 65535 < (s.readReg a).toNat + (s.readReg b).toNat ∧
          t = s.setStatus .faultAddOverflow) ∨
        ((s.addOverflowFaults = true → (s.readReg a).toNat + (s.readReg b).toNat ≤ 65535) ∧
          s.pc.toNat + 1 < 65536 ∧
          t = (s.setReg c (wrappedSum (s.readReg a) (s.readReg b))).writePc
            (BitVec.ofNat 16 (s.pc.toNat + 1))))) ∨
    ((3 ≤ reg1.toNat ∨ 3 ≤ reg2.toNat ∨ 3 ≤ reg3.toNat) ∧ t = s.setStatus .faultRegIndex) := by
  rcases fields_cases reg1 reg2 reg3 with ⟨a, b, c, rfl, rfl, rfl⟩ | hbad
  · rw [execAdd, withRegs_field] at h
    refine .inl ⟨a, b, c, ⟨rfl, rfl, rfl⟩, ?_⟩
    split at h
    · next hov =>
      simp only [Bool.and_eq_true, sumOverflows_iff] at hov
      exact .inl ⟨hov.1, hov.2, (Host.Outcome.next.inj h).symm⟩
    · next hov =>
      simp only [Bool.and_eq_true, sumOverflows_iff, not_and, not_lt] at hov
      exact .inr ⟨hov, setPc_next h⟩
  · rw [execAdd, withRegs_bad hbad] at h
    exact .inr ⟨hbad, (Host.Outcome.next.inj h).symm⟩

theorem execBr_next {offset : BitVec 12} {s t : State} (h : execBr offset s = .next t) :
    (s.pc.toNat + 2 < offset.toNat ∧ t = s.setStatus .faultPcRange) ∨
    (offset.toNat ≤ s.pc.toNat + 2 ∧ s.pc.toNat + 2 - offset.toNat < 65536 ∧
      t = s.writePc (BitVec.ofNat 16 (s.pc.toNat + 2 - offset.toNat))) := by
  unfold execBr at h
  split at h
  · next hlt => exact .inl ⟨hlt, (Host.Outcome.next.inj h).symm⟩
  · next hlt => exact .inr ⟨by omega, setPc_next h⟩

/-! ### The step -/

/-- Everything a step can do when it answers a next state (R96). -/
theorem step_next {s t : State} (h : step s = .next t) :
    s.status = .running ∧
      ((fetch s = none ∧ t = s.setStatus .faultPcRange) ∨
        (∃ w, fetch s = some w ∧ decode w = none ∧ t = s.setStatus .stoppedUnknownOpcode) ∨
        (∃ w i, fetch s = some w ∧ decode w = some i ∧ exec i s = .next t)) := by
  unfold step fetchDecode at h
  split at h
  · next i hfd =>
    split at hfd
    · next hrun =>
      split at hfd
      · cases hfd
      · next w hw =>
        split at hfd
        · cases hfd
        · next i' hi =>
          cases hfd
          exact ⟨hrun, .inr (.inr ⟨w, i, hw, hi, h⟩)⟩
    · cases hfd
  · next r hfd =>
    subst h
    split at hfd
    · next hrun =>
      split at hfd
      · next hw =>
        cases hfd
        exact ⟨hrun, .inl ⟨hw, rfl⟩⟩
      · next w hw =>
        split at hfd
        · next hd =>
          cases hfd
          exact ⟨hrun, .inr (.inl ⟨w, hw, hd, rfl⟩)⟩
        · cases hfd
    · cases hfd

/-- A word is fetched only below IMEM_LEN (R32). -/
theorem fetch_lt {s : State} {w : Word} (h : fetch s = some w) : s.pc.toNat < s.imem.len.val := by
  unfold fetch Memory.readWord? at h
  split at h
  · assumption
  · cases h

theorem fetch_eq_none_iff (s : State) : fetch s = none ↔ s.imem.len.val ≤ s.pc.toNat := by
  unfold fetch Memory.readWord?
  split <;> simp <;> omega

end Sys2Proof.Machine
end

