-- ==== Sys2Proof/Laws/PerInstr.lean ====
section
/-!
SUPPORT. The statements made of every instruction, one lemma per constructor.
Family OpcodeField: the opcode field of an instruction's encoded word is its opcode number
(30_encoding.md R50, R58).
-/

namespace Sys2Proof.Laws.OpcodeField

/-- Bits 15..12 of the encoded word are the instruction's opcode. -/
def Statement (i : Instr) : Prop := opcodeField (encode i) = i.opcode

theorem halt : Statement .halt := rfl

theorem load (reg : RegField) (value : BitVec 8) : Statement (.load reg value) := by
  apply BitVec.eq_of_toNat_eq
  have := reg.isLt
  have := value.isLt
  rw [opcodeField_toNat, encode_load_toNat, show (Instr.load reg value).opcode.toNat = 1 from rfl]
  omega

theorem swap (reg1 reg2 reg3 : RegField) : Statement (.swap reg1 reg2 reg3) := by
  apply BitVec.eq_of_toNat_eq
  have := reg1.isLt
  have := reg2.isLt
  have := reg3.isLt
  rw [opcodeField_toNat, encode_swap_toNat,
    show (Instr.swap reg1 reg2 reg3).opcode.toNat = 2 from rfl]
  omega

theorem add (reg1 reg2 reg3 : RegField) : Statement (.add reg1 reg2 reg3) := by
  apply BitVec.eq_of_toNat_eq
  have := reg1.isLt
  have := reg2.isLt
  have := reg3.isLt
  rw [opcodeField_toNat, encode_add_toNat,
    show (Instr.add reg1 reg2 reg3).opcode.toNat = 3 from rfl]
  omega

theorem br (offset : BitVec 12) : Statement (.br offset) := by
  apply BitVec.eq_of_toNat_eq
  have := offset.isLt
  rw [opcodeField_toNat, encode_br_toNat, show (Instr.br offset).opcode.toNat = 4 from rfl]
  omega

end Sys2Proof.Laws.OpcodeField
end

