-- ==== Sys2Proof/Laws/Run.lean ====
section
/-!
SUPPORT. Runs, one step at a time: what one more step of a run is, by the outcome of its first step.
-/

namespace Sys2Proof.Machine

@[simp] theorem ended_iff (s : State) : s.ended = true ↔ s.status ≠ .running := by
  unfold State.ended
  exact decide_eq_true_iff

theorem runFor_succ_next {s t : State} (h : step s = .next t) (k : Nat) :
    runFor (k + 1) s = runFor k t := by
  rw [runFor, h]

theorem runFor_succ_fault {s : State} {r : Fault} (h : step s = .fault r) (k : Nat) :
    runFor (k + 1) s = s := by
  rw [runFor, h]

theorem takeSteps_succ_next {s t : State} (h : step s = .next t) (k : Nat) :
    takeSteps (k + 1) s = takeSteps k t := by
  rw [takeSteps, h]

theorem takeSteps_succ_fault {s : State} {r : Fault} (h : step s = .fault r) (k : Nat) :
    takeSteps (k + 1) s = .fault r := by
  rw [takeSteps, h]

theorem takeSteps_succ_refused {s : State} {r : Refusal} (h : step s = .refused r) (k : Nat) :
    takeSteps (k + 1) s = .refused r := by
  rw [takeSteps, h]

end Sys2Proof.Machine
end

