-- ==== Sys2Proof/Tests/Slice0.lean ====
section
/-!
SUPPORT. The model's own tests. Expected results are those of 95_test_vectors.md (section named at each
group) or a hand application of the rule named. Then, for every obligation with hypotheses, a concrete
state and operands that meet them together, with a witness for each clause at a boundary of its range.
-/

namespace Sys2Proof.Tests

open Sys2Proof.Machine

/-- A running state with the given registers, pc and mode, and the word `w` at the pc; IMEM_LEN = pc + 1. -/
def st (x0 x1 x2 pc : Word) (strict : Bool) (w : Nat) : State :=
  State.withFetchWord
    { State.reset with x := ⟨x0, x1, x2⟩, pc := pc, addOverflowFaults := strict } 16 w

/-- The state after one step, or the state itself where there is none. -/
def after (s : State) : State :=
  match step s with
  | .next t => t
  | .fault _ => s
  | .refused _ => s

/-! ### WellFormed: a well-formed and an ill-formed term for each check (R67) -/

theorem test_wellFormed_accepts :
    Instr.halt.wellFormed = true ∧ (Instr.load 2 255).wellFormed = true ∧
      (Instr.swap 2 2 2).wellFormed = true ∧ (Instr.add 0 2 1).wellFormed = true ∧
      (Instr.br 4095).wellFormed = true := by decide

theorem test_wellFormed_refuses_load : (Instr.load 3 0).wellFormed = false := by decide

theorem test_wellFormed_refuses_swap :
    (Instr.swap 3 0 0).wellFormed = false ∧ (Instr.swap 0 3 0).wellFormed = false ∧
      (Instr.swap 0 0 3).wellFormed = false := by decide

theorem test_wellFormed_refuses_add :
    (Instr.add 15 0 0).wellFormed = false ∧ (Instr.add 0 15 0).wellFormed = false ∧
      (Instr.add 0 0 15).wellFormed = false := by decide

/-! ### Decoding words written out from the encodings (section 2.1; formats of R46) -/

theorem test_decode_halt :
    decode 0b0000_1010_1011_1100 = some .halt ∧ decode 0b0000_1111_1111_1111 = some .halt := by decide

theorem test_decode_load :
    decode 0b0001_0001_0001_0000 = some (.load 1 16) ∧
      decode 0b0001_1111_1111_1111 = some (.load 15 255) := by decide

theorem test_decode_swap :
    decode 0b0010_0000_0001_0010 = some (.swap 0 1 2) ∧
      decode 0b0010_0001_0000_0000 = some (.swap 1 0 0) := by decide

theorem test_decode_add :
    decode 0b0011_0000_0010_0001 = some (.add 0 2 1) ∧
      decode 0b0011_0011_0000_0000 = some (.add 3 0 0) := by decide

theorem test_decode_br :
    decode 0b0100_0000_0000_0011 = some (.br 3) ∧
      decode 0b0100_1010_1011_1100 = some (.br 2748) := by decide

theorem test_decode_none :
    decode 0x5000 = none ∧ decode 0xA5A5 = none ∧ decode 0xFFFF = none := by decide

theorem test_encode :
    encode (.load 1 16) = 0x1110 ∧ encode (.swap 1 0 0) = 0x2100 ∧ encode (.add 0 1 0) = 0x3010 ∧
      encode (.br 3) = 0x4003 ∧ encode .halt = 0x0000 := by decide

theorem test_decodeTableWord :
    decodeTableWord 16 0x1110 = some (.load 1 16) ∧ decodeTableWord 16 0x4FFF = some (.br 4095) ∧
      decodeTableWord 16 0x6ABC = none := by decide

theorem test_decodeBytes_rejects_by_name :
    decodeBytes [0x00, 0x50] = .error .noMatch ∧ decodeBytes [0x00] = .error .notOneWord := ⟨rfl, rfl⟩

theorem test_decoderSignals :
    decoderSignals 0x2345 = ⟨true, some 2, 3, 4, 5, 0x45, 0x345, some false⟩ ∧
      (decoderSignals 0x8000).matched = false := by decide

theorem test_asmText :
    asmText (.load 1 16) = "LOAD r1, 16" ∧ asmText (.swap 1 0 0) = "SWAP r1, r0, r0" ∧
      asmText (.br 3) = "BR 3" ∧ asmText .halt = "HALT" := by decide

/-! ### One step of each instruction (sections 2.2 to 2.6) -/

theorem test_load_clears_high_byte :
    (after (st 43981 1 2 3 false 0x10FF)).x = ⟨255, 1, 2⟩ ∧
      (after (st 43981 1 2 3 false 0x10FF)).pc = 4 := by decide

theorem test_load_bad_index :
    (after (st 5 6 7 3 false 0x1300)).x = ⟨5, 6, 7⟩ ∧ (after (st 5 6 7 3 false 0x1300)).pc = 3 ∧
      (after (st 5 6 7 3 false 0x1300)).status = .faultRegIndex := by decide

theorem test_swap_distinct_and_aliased :
    (after (st 10 20 30 0 false 0x2012)).x = ⟨20, 10, 10⟩ ∧
      (after (st 10 20 30 0 false 0x2100)).x = ⟨20, 20, 30⟩ ∧
      (after (st 10 20 30 0 false 0x2010)).x = ⟨20, 20, 30⟩ ∧
      (after (st 10 20 30 0 false 0x2002)).x = ⟨10, 20, 10⟩ := by decide

theorem test_swap_bad_index_writes_nothing :
    (after (st 65535 65535 9 1 false 0x2003)).x = ⟨65535, 65535, 9⟩ ∧
      (after (st 65535 65535 9 1 false 0x2003)).status = .faultRegIndex := by decide

theorem test_add_wraps :
    (after (st 40000 30000 7 5 false 0x3012)).x = ⟨40000, 30000, 4464⟩ ∧
      (after (st 100 200 300 5 false 0x3011)).x = ⟨100, 300, 300⟩ := by decide

theorem test_add_strict_fault :
    (after (st 65535 1 7 5 true 0x3012)).x = ⟨65535, 1, 7⟩ ∧
      (after (st 65535 1 7 5 true 0x3012)).pc = 5 ∧
      (after (st 65535 1 7 5 true 0x3012)).status = .faultAddOverflow := by decide

theorem test_br_targets :
    (after (st 1 2 3 5 false 0x4000)).pc = 7 ∧ (after (st 1 2 3 5 false 0x4003)).pc = 4 ∧
      (after (st 1 2 3 5 false 0x4007)).pc = 0 ∧ (after (st 1 2 3 4093 false 0x4FFF)).pc = 0 := by decide

theorem test_br_below_zero :
    (after (st 1 2 3 5 false 0x4008)).pc = 5 ∧
      (after (st 1 2 3 5 false 0x4008)).status = .faultPcRange := by decide

theorem test_halt_outputs :
    (after (st 65535 1 2 2 false 0x0FFF)).out = some 65535 ∧
      (after (st 65535 1 2 2 false 0x0FFF)).pc = 2 ∧
      (after (st 65535 1 2 2 false 0x0FFF)).status = .halted := by decide

theorem test_halt_printed : printedLine (after (st 65535 1 2 2 false 0)) = some "65535" := by decide

/-! ### The machine around the instructions (section 2.7) -/

theorem test_empty_program_faults : (after State.reset).status = .faultPcRange := by decide

theorem test_unknown_opcode_stops :
    (after (st 0 0 0 0 false 0xFFFF)).status = .stoppedUnknownOpcode := by decide

theorem test_index_before_overflow :
    (after (st 65535 0 0 1 true 0x3003)).status = .faultRegIndex := by decide

theorem test_memory_holds_program :
    (Memory.ofWords [0x1110, 0x0000, 0x2100]).cells = [(0, 0x10), (1, 0x11), (5, 0x21)] ∧
      (Memory.ofWords [0x1110, 0x0000, 0x2100]).readWord? 1 = some 0 ∧
      (Memory.ofWords [0x1110, 0x0000, 0x2100]).readWord? 3 = none := by decide

theorem test_boot_strict :
    (bootState? [0x3001] true).map (fun s => (s.pc, s.addOverflowFaults, s.imem.readWord? 0)) =
      some (0, true, some 0x3001) := by decide

theorem test_assertReset_keeps_program :
    assertReset (after (st 40000 0 5 0 true 0x3001)) = st 0 0 0 0 true 0x3001 := by decide

theorem test_hostView :
    hostView (after (st 32 16 0 3 false 0)) = ⟨1, some ⟨true, 32, 3, ⟨32, 16, 0⟩⟩⟩ ∧
      (hostView (st 32 16 0 3 false 0)).final = none := by decide

theorem test_diagnostic :
    diagnostic (after (st 0 5 0 1 false 0x2013)) = some ⟨1, some 2, .faultRegIndex⟩ ∧
      diagnostic (after State.reset) = some ⟨0, none, .faultPcRange⟩ := by decide

theorem test_blockSignals :
    blockSignals (st 0 0 0 2 false 0x4002) = ⟨2, some 0x4002, 3, 0, false, 0⟩ := by decide

/-! ### Witnesses: for each obligation, its hypotheses met -/

theorem witness_SuppliedProgramIsHeld :
    (List.replicate 65534 (0 : Word)).length ≤ 65534 ∧
      65534 < (List.replicate 65535 (0 : Word)).length := by
  simp only [List.length_replicate]; decide

theorem witness_SameWordsAreSameMemory :
    ∃ m n : Memory,
      m = ((Memory.mk 0 []).placeWord 1 0x2100).placeWord 0 0x1110 ∧
      n = Memory.ofWords [0x1110, 0x2100] ∧
      m.wf = true ∧ n.wf = true ∧ m.len = n.len ∧ ∀ q, m.readWord? q = n.readWord? q :=
  ⟨_, _, rfl, rfl, by decide, by decide, by decide, fun _ => rfl⟩

theorem witness_PlacedWordIsRunNext :
    State.reset.imem.wf = true ∧ State.reset.pc.toNat < 65534 ∧
      ({ State.reset with pc := 65533 } : State).pc.toNat < 65534 ∧
      decode (BitVec.ofNat 16 0x1110) = some (.load 1 16) := by decide

theorem witness_DecodeAndEncodeAgree :
    decode 0x0ABC#16 = some .halt ∧ decode 0x0000#16 = some .halt ∧
      decode 0x1000#16 = some (.load 0 0) := by decide

theorem witness_DecoderBlockOutputs :
    (decoderSignals 0x0000).matched = true ∧ (decoderSignals 0x4FFF).matched = true := by decide

theorem witness_StepRunsDecodedInstruction :
    (st 0 0 0 3 false 0x2012).status = .running ∧
      (st 0 0 0 3 false 0x2012).imem.readWord? (st 0 0 0 3 false 0x2012).pc.toNat = some 0x2012 ∧
      decode 0x2012 = some (.swap 0 1 2) := by decide

theorem witness_FetchBeyondMemoryFaults :
    State.reset.status = .running ∧ State.reset.imem.len.val ≤ State.reset.pc.toNat := by decide

theorem witness_UndefinedOpcodesStopSilently :
    (st 0 0 0 3 false 0x5000).status = .running ∧
      (st 0 0 0 3 false 0x5000).imem.readWord? (st 0 0 0 3 false 0x5000).pc.toNat = some 0x5000 ∧
      0x5000 ≤ (0x5000 : Word).toNat ∧ ¬ 0x5000 ≤ (0x4FFF : Word).toNat := by decide

theorem witness_TerminalStatusTakesNoStep : (after State.reset).status ≠ .running := by decide

theorem witness_ConditionsHaveOnePriority_range :
    step State.reset = .next (after State.reset) ∧
      State.reset.imem.len.val ≤ State.reset.pc.toNat := ⟨rfl, by decide⟩

theorem witness_ConditionsHaveOnePriority_decode :
    step (st 0 0 0 3 false 0x5000) = .next (after (st 0 0 0 3 false 0x5000)) ∧
      fetch (st 0 0 0 3 false 0x5000) = some 0x5000 ∧ 0x5000 ≤ (0x5000 : Word).toNat :=
  ⟨rfl, by decide, by decide⟩

theorem witness_ConditionsHaveOnePriority_index :
    step (st 65535 0 0 1 true 0x3003) = .next (after (st 65535 0 0 1 true 0x3003)) ∧
      decodedAt (st 65535 0 0 1 true 0x3003) = some (.add 0 0 3) ∧
      (Instr.add 0 0 3).wellFormed = false := ⟨rfl, by decide, by decide⟩

theorem witness_ConditionsHaveOnePriority_own :
    step (st 65535 0 0 1 true 0x3002) = .next (after (st 65535 0 0 1 true 0x3002)) ∧
      decodedAt (st 65535 0 0 1 true 0x3002) = some (.add 0 0 2) ∧
      (Instr.add 0 0 2).wellFormed = true := ⟨rfl, by decide, by decide⟩

theorem witness_ConditionsHaveOnePriority_halt_load_swap :
    step (st 7 0 0 0 false 0x0FFF) = .next (after (st 7 0 0 0 false 0x0FFF)) ∧
      decodedAt (st 7 0 0 0 false 0x0FFF) = some .halt ∧
      step (st 0 0 0 3 false 0x12FF) = .next (after (st 0 0 0 3 false 0x12FF)) ∧
      decodedAt (st 0 0 0 3 false 0x12FF) = some (.load Reg.r2.field 255) ∧
      step (st 1 2 3 3 false 0x2222) = .next (after (st 1 2 3 3 false 0x2222)) ∧
      decodedAt (st 1 2 3 3 false 0x2222) = some (.swap Reg.r2.field Reg.r2.field Reg.r2.field) :=
  ⟨rfl, by decide, rfl, by decide, rfl, by decide⟩

theorem witness_ConditionsHaveOnePriority_add :
    step (st 65535 1 7 5 true 0x3012) = .next (after (st 65535 1 7 5 true 0x3012)) ∧
      decodedAt (st 65535 1 7 5 true 0x3012) =
        some (.add Reg.r0.field Reg.r1.field Reg.r2.field) ∧
      step (st 65535 0 7 5 true 0x3012) = .next (after (st 65535 0 7 5 true 0x3012)) ∧
      decodedAt (st 65535 0 7 5 true 0x3012) =
        some (.add Reg.r0.field Reg.r1.field Reg.r2.field) :=
  ⟨rfl, by decide, rfl, by decide⟩

theorem witness_ConditionsHaveOnePriority_br :
    step (st 1 2 3 5 false 0x4008) = .next (after (st 1 2 3 5 false 0x4008)) ∧
      decodedAt (st 1 2 3 5 false 0x4008) = some (.br 8) ∧
      step (st 1 2 3 5 false 0x4007) = .next (after (st 1 2 3 5 false 0x4007)) ∧
      decodedAt (st 1 2 3 5 false 0x4007) = some (.br 7) :=
  ⟨rfl, by decide, rfl, by decide⟩

theorem witness_HaltOutputsRegisterZero :
    (0x0000 : Word).toNat < 0x1000 ∧ (0x0FFF : Word).toNat < 0x1000 := by decide

theorem witness_OnlyHaltOutputs :
    step (st 7 0 0 0 false 0) = .next (after (st 7 0 0 0 false 0)) ∧
      (after (st 7 0 0 0 false 0)).out ≠ (st 7 0 0 0 false 0).out := ⟨rfl, by decide⟩

theorem witness_HaltPrintsDecimal :
    exec .halt (st 65535 0 0 0 false 0) = .next (after (st 65535 0 0 0 false 0)) := rfl

theorem witness_LoadWritesZeroExtendedImmediate :
    (st 43981 1 2 65533 false 0x10FF).pc.toNat < (st 43981 1 2 65533 false 0x10FF).imem.len.val := by
  decide

theorem witness_SwapDistinctExchanges :
    Reg.r0 ≠ Reg.r1 ∧ Reg.r0 ≠ Reg.r2 ∧ Reg.r1 ≠ Reg.r2 ∧
      (st 10 20 30 0 false 0x2012).pc.toNat < (st 10 20 30 0 false 0x2012).imem.len.val := by decide

theorem witness_SwapByIndexCoincidence :
    (st 10 20 30 0 false 0x2012).pc.toNat < (st 10 20 30 0 false 0x2012).imem.len.val ∧
      (Reg.r0 ≠ Reg.r1 ∧ Reg.r0 ≠ Reg.r2 ∧ Reg.r1 ≠ Reg.r2) ∧ (Reg.r0 = Reg.r0 ∧ Reg.r2 ≠ Reg.r0) ∧
      (Reg.r1 = Reg.r1 ∧ Reg.r0 ≠ Reg.r1) := by decide

theorem witness_SwapTwiceUndoesExchange :
    Reg.r0 ≠ Reg.r1 ∧ Reg.r0 ≠ Reg.r2 ∧ Reg.r1 ≠ Reg.r2 ∧
      ({ st 10 20 30 1 false 0x2012 with pc := 0 } : State).pc.toNat + 1 <
        ({ st 10 20 30 1 false 0x2012 with pc := 0 } : State).imem.len.val := by decide

theorem witness_SwapCreatesNoValue :
    exec (.swap 0 1 2) (st 10 20 30 0 false 0x2012) = .next (after (st 10 20 30 0 false 0x2012)) := rfl

theorem witness_AddWrapsByDefault :
    (st 65535 1 7 5 false 0x3012).addOverflowFaults = false ∧
      (st 65535 1 7 5 false 0x3012).pc.toNat < (st 65535 1 7 5 false 0x3012).imem.len.val := by decide

theorem witness_AddFaultsInStrictMode :
    (st 65535 1 7 5 true 0x3012).addOverflowFaults = true ∧
      65536 ≤ ((st 65535 1 7 5 true 0x3012).readReg .r0).toNat +
        ((st 65535 1 7 5 true 0x3012).readReg .r1).toNat ∧
      (st 65535 0 7 5 true 0x3012).addOverflowFaults = true ∧
      ((st 65535 0 7 5 true 0x3012).readReg .r0).toNat +
        ((st 65535 0 7 5 true 0x3012).readReg .r1).toNat ≤ 65535 ∧
      (st 65535 0 7 5 true 0x3012).pc.toNat < (st 65535 0 7 5 true 0x3012).imem.len.val := by decide

theorem witness_BranchTargetTable :
    (st 1 2 3 5 false 0x4007).pc.toNat < (st 1 2 3 5 false 0x4007).imem.len.val ∧
      (0 : BitVec 12).toNat ≤ (st 1 2 3 5 false 0x4007).pc.toNat + 2 ∧
      (1 : BitVec 12).toNat ≤ (st 1 2 3 5 false 0x4007).pc.toNat + 2 ∧
      (2 : BitVec 12).toNat ≤ (st 1 2 3 5 false 0x4007).pc.toNat + 2 ∧
      (7 : BitVec 12).toNat = (st 1 2 3 5 false 0x4007).pc.toNat + 2 := by decide

theorem witness_BranchBelowZeroFaults :
    (st 1 2 3 5 false 0x4008).pc.toNat + 2 < (8 : BitVec 12).toNat ∧
      (st 1 2 3 4092 false 0x4FFF).pc.toNat + 2 < (4095 : BitVec 12).toNat := by decide

theorem witness_BadRegisterIndexFaults :
    3 ≤ (3 : RegField).toNat ∧ 3 ≤ (15 : RegField).toNat ∧
      exec .halt (st 0 0 0 0 false 0) = .next (after (st 0 0 0 0 false 0)) ∧
      (st 0 0 0 0 false 0x4FFF).status = .running ∧
      exec (.br 4095) (st 0 0 0 0 false 0x4FFF) = .next (after (st 0 0 0 0 false 0x4FFF)) :=
  ⟨by decide, by decide, rfl, rfl, rfl⟩

theorem witness_WellFormedIsValidation :
    (st 0 0 0 3 false 0x1300).status = .running ∧
      (st 0 0 0 3 false 0x1300).pc.toNat < (st 0 0 0 3 false 0x1300).imem.len.val := by decide

theorem witness_InstructionFrame :
    exec (.load 1 16) (st 5 6 7 3 false 0x1110) = .next (after (st 5 6 7 3 false 0x1110)) ∧
      Reg.r0 ∉ writes (.load 1 16) ∧ Instr.load 1 16 ≠ .halt := ⟨rfl, by decide, by decide⟩

theorem witness_EveryInstructionCompletes :
    (st 0 0 0 65533 false 0x4000).pc.toNat < (st 0 0 0 65533 false 0x4000).imem.len.val := by decide

theorem witness_MeaningsStopOnlyBeyondAnyMemory :
    exec (.load 0 0) { State.reset with pc := 65535 } = .fault .pcOverflow ∧
      exec (.br 0) { State.reset with pc := 65534 } = .fault .pcOverflow := ⟨rfl, rfl⟩

theorem witness_EndingStepIsPrecise :
    step (st 65535 1 7 5 true 0x3012) = .next (after (st 65535 1 7 5 true 0x3012)) ∧
      (after (st 65535 1 7 5 true 0x3012)).status ≠ .running ∧
      (after (st 65535 1 7 5 true 0x3012)).status ≠ .halted := ⟨rfl, by decide, by decide⟩

theorem witness_PcAfterStep :
    step (st 1 2 3 5 false 0x4008) = .next (after (st 1 2 3 5 false 0x4008)) ∧
      (after (st 1 2 3 5 false 0x4008)).status ≠ .running ∧
      step (st 1 2 3 5 false 0x4007) = .next (after (st 1 2 3 5 false 0x4007)) ∧
      (after (st 1 2 3 5 false 0x4007)).status = .running :=
  ⟨rfl, by decide, rfl, by decide⟩

theorem witness_StepKeepsInvariant :
    StateInv (st 7 0 0 0 false 0) ∧ step (st 7 0 0 0 false 0) = .next (after (st 7 0 0 0 false 0)) :=
  ⟨by decide, rfl⟩

theorem witness_EveryEndIsExplained :
    step (st 40000 0 5 0 true 0x3001) = .next (after (st 40000 0 5 0 true 0x3001)) ∧
      (after (st 40000 0 5 0 true 0x3001)).status = .faultAddOverflow := ⟨rfl, by decide⟩

theorem witness_RunningMachineSteps :
    StateInv (st 1 2 3 5 false 0x4000) ∧ (st 1 2 3 5 false 0x4000).status = .running := by decide

theorem witness_EndedRunNeverChanges : (runFor 1 State.reset).ended = true := by decide

theorem witness_ControlFlowIgnoresData :
    SameControl (st 1 2 3 5 false 0x3012) (st 9 9 9 5 false 0x3012) ∧
      (st 1 2 3 5 false 0x3012).x ≠ (st 9 9 9 5 false 0x3012).x :=
  ⟨⟨rfl, rfl, rfl, rfl, rfl⟩, by decide⟩

theorem witness_RevisitedPcRunsForever :
    (st 0 0 0 0 false 0x4002).addOverflowFaults = false ∧
      takeSteps (0 + 1) (st 0 0 0 0 false 0x4002) = .next (after (st 0 0 0 0 false 0x4002)) ∧
      (after (st 0 0 0 0 false 0x4002)).status = .running ∧
      (after (st 0 0 0 0 false 0x4002)).pc = (st 0 0 0 0 false 0x4002).pc :=
  ⟨rfl, rfl, by decide, by decide⟩

theorem witness_StrictModeOnlyStopsEarlier :
    (runFor 1 { st 65535 0 7 5 false 0x3012 with addOverflowFaults := true }).status ≠
      .faultAddOverflow := by decide

theorem witness_HostReadsOnlyEndedRuns :
    State.reset.status = .running ∧ (after State.reset).status ≠ .running := by decide

theorem witness_InstructionPort :
    (st 0 0 0 2 false 0x4002).pc.toNat < (st 0 0 0 2 false 0x4002).imem.len.val ∧
      State.reset.imem.len.val ≤ State.reset.pc.toNat := by decide

theorem witness_DiagnosticNamesTheFault :
    step (st 5 6 7 3 false 0x1300) = .next (after (st 5 6 7 3 false 0x1300)) ∧
      (after (st 5 6 7 3 false 0x1300)).status = .faultRegIndex ∧
      step (st 1 2 3 5 false 0x4008) = .next (after (st 1 2 3 5 false 0x4008)) ∧
      (after (st 1 2 3 5 false 0x4008)).status = .faultPcRange ∧
      step (st 65535 1 7 5 true 0x3012) = .next (after (st 65535 1 7 5 true 0x3012)) ∧
      (after (st 65535 1 7 5 true 0x3012)).status = .faultAddOverflow ∧
      step (st 7 0 0 0 false 0) = .next (after (st 7 0 0 0 false 0)) ∧
      (after (st 7 0 0 0 false 0)).status = .halted :=
  ⟨rfl, by decide, rfl, by decide, rfl, by decide, rfl, by decide⟩

end Sys2Proof.Tests
end

section
/-!
PROOFS. The host's supply of a program (00_scope.md R6, R7; 70_reset_and_hazards.md R132).
-/

namespace Sys2Proof.Machine

/-- A program that fits (R6) is supplied to a machine in its reset state. -/
theorem bootState?_of_length_le {program : List Word} (h : program.length ≤ 65534) (strict : Bool) :
    bootState? program strict =
      some { State.reset with imem := Memory.ofWords program, addOverflowFaults := strict } :=
  if_pos h

/-- A program is refused exactly when it is longer than any memory (R6, V6). -/
theorem bootState?_eq_none_iff (program : List Word) (strict : Bool) :
    bootState? program strict = none ↔ 65534 < program.length := by
  unfold bootState?
  split <;> simp <;> omega

/-- The reset state meets the invariant with any canonical program and either mode: the pc is 0, and there
is no output while the machine runs. -/
theorem stateInv_reset_with {m : Memory} (h : m.wf = true) (strict : Bool) :
    StateInv { State.reset with imem := m, addOverflowFaults := strict } :=
  ⟨h, Nat.zero_le _, rfl⟩

/-- Settles O4: a program that fits reads back by `Memory.ofWords_spec` from a reset machine; a longer one
is refused. -/
theorem suppliedProgramIsHeld : Obligations.SuppliedProgramIsHeld := by
  intro program strict
  refine ⟨fun hfits => ?_, (bootState?_eq_none_iff program strict).mpr⟩
  obtain ⟨hwf, hlen, hread⟩ := Memory.ofWords_spec hfits
  exact ⟨_, bootState?_of_length_le hfits strict, stateInv_reset_with hwf strict,
    rfl, rfl, rfl, rfl, rfl, hlen, hread⟩

end Sys2Proof.Machine
end

section
/-!
PROOFS. The state of the machine (10_state.md): reset, what a meaning and a step can answer, the frame of the
instructions, the pc, the output, the invariant, and the end of a run.
-/

namespace Sys2Proof.Machine

/-! ### Reset (R28) -/

/-- Settles O1: each item is a field of the reset state. -/
theorem resetLeavesStatedValues : Obligations.ResetLeavesStatedValues :=
  ⟨rfl, rfl, rfl, rfl, rfl⟩

/-- Settles O3: the empty memory of the reset state is canonical. -/
theorem resetMeetsInvariant : Obligations.ResetMeetsInvariant :=
  stateInv_reset_with reset_imem_wf Config.addOverflowFaultsDefault

/-! ### The end of a run (R24, R102) -/

/-- Settles O14: the status test is the first thing a step does. -/
theorem terminalStatusTakesNoStep : Obligations.TerminalStatusTakesNoStep := by
  intro s hend
  rw [step, fetchDecode, if_neg hend]

theorem runFor_succ_refused {s : State} {r : Refusal} (h : step s = .refused r) (k : Nat) :
    runFor (k + 1) s = s := by
  rw [runFor, h]

theorem runFor_of_ended {s : State} (h : s.ended = true) (k : Nat) : runFor k s = s := by
  cases k with
  | zero => rfl
  | succ k => exact runFor_succ_fault (terminalStatusTakesNoStep s ((ended_iff s).mp h)) k

/-- Settles O39, by induction on the number of steps within which the run has ended. -/
theorem endedRunNeverChanges : Obligations.EndedRunNeverChanges := by
  intro k m s hend
  induction k generalizing s with
  | zero =>
    rw [Nat.zero_add]
    exact runFor_of_ended hend m
  | succ k ih =>
    rw [Nat.succ_add]
    cases hstep : step s with
    | next t =>
      rw [runFor_succ_next hstep] at hend
      rw [runFor_succ_next hstep, runFor_succ_next hstep]
      exact ih t hend
    | fault r => rw [runFor_succ_fault hstep, runFor_succ_fault hstep]
    | refused r => rw [runFor_succ_refused hstep, runFor_succ_refused hstep]

/-! ### What a meaning can answer (R21, R86) -/

/-- The answer is a next state, or the model's own stop (log entry 9) at a pc no fetch can succeed at. -/
def NextOrOverflowAt (pc : Nat) (o : Result) : Prop :=
  (∃ t, o = .next t) ∨ (o = .fault .pcOverflow ∧ 65534 ≤ pc)

/-- The targets of R21 lie at most 2 above the pc, so only a pc of 65534 or more has one out of range. -/
theorem nextOrOverflowAt_setPc {p n : Nat} (hn : n ≤ p + 2) (s : State) :
    NextOrOverflowAt p (setPc n s) := by
  by_cases hlt : n < 65536
  · exact .inl ⟨_, setPc_of_lt hlt s⟩
  · exact .inr ⟨if_neg hlt, by omega⟩

theorem nextOrOverflowAt_raise (p : Nat) (c : Cause) (s : State) : NextOrOverflowAt p (raise c s) :=
  .inl ⟨_, rfl⟩

theorem nextOrOverflowAt_withReg {p : Nat} {body : Reg → Result}
    (hbody : ∀ r, NextOrOverflowAt p (body r)) (f : RegField) (s : State) :
    NextOrOverflowAt p (withReg f s body) := by
  unfold withReg
  split
  · exact hbody _
  · exact nextOrOverflowAt_raise p _ s

theorem nextOrOverflowAt_withRegs {p : Nat} {body : Reg → Reg → Reg → Result}
    (hbody : ∀ a b c, NextOrOverflowAt p (body a b c)) (f1 f2 f3 : RegField) (s : State) :
    NextOrOverflowAt p (withRegs f1 f2 f3 s body) := by
  unfold withRegs
  split
  · exact hbody _ _ _
  · exact nextOrOverflowAt_raise p _ s

theorem exec_nextOrOverflowAt (i : Instr) (s : State) : NextOrOverflowAt s.pc.toNat (exec i s) := by
  have hadvance : ∀ u : State, u.pc = s.pc → NextOrOverflowAt s.pc.toNat (advance u) := fun u hu =>
    nextOrOverflowAt_setPc (by rw [hu]; omega) u
  cases i with
  | halt => exact nextOrOverflowAt_raise _ _ _
  | load reg value => exact nextOrOverflowAt_withReg (fun r => hadvance (s.setReg r _) rfl) reg s
  | swap reg1 reg2 reg3 =>
    exact nextOrOverflowAt_withRegs (fun a b c => hadvance (rotate a b c s) rfl) reg1 reg2 reg3 s
  | add reg1 reg2 reg3 =>
    refine nextOrOverflowAt_withRegs (fun a b c => ?_) reg1 reg2 reg3 s
    split
    · exact nextOrOverflowAt_raise _ _ s
    · exact hadvance _ rfl
  | br offset =>
    rw [exec, execBr]
    split
    · exact nextOrOverflowAt_raise _ _ s
    · exact nextOrOverflowAt_setPc (Nat.sub_le _ _) s

/-- Settles O33: an answer that is not a next state is the stop of a pc write. -/
theorem meaningsStopOnlyBeyondAnyMemory : Obligations.MeaningsStopOnlyBeyondAnyMemory := by
  intro i s
  rcases exec_nextOrOverflowAt i s with ⟨t, ht⟩ | ⟨hstop, hpc⟩
  · rw [ht]
    exact ⟨nofun, nofun⟩
  · rw [hstop]
    exact ⟨nofun, fun f hf => ⟨(Host.Outcome.fault.inj hf).symm, hpc⟩⟩

/-! ### The shapes of a meaning's next state (R15, R20, R25) -/

/-- The next states a meaning can answer: Halt's, an end that writes only status, the fall-through of an
instruction that writes registers, and a taken Branch. -/
inductive ExecAnswer (i : Instr) (s : State) : State → Prop
  | halt (hi : i = .halt) : ExecAnswer i s ((s.emit (s.readReg .r0)).setStatus .halted)
  | fault (c : Status) (hi : i ≠ .halt) (hc : c ∈ endings i) : ExecAnswer i s (s.setStatus c)
  | compute (x : RegFile) (hi : i ≠ .halt) (hbr : ∀ k, i ≠ .br k)
      (hx : ∀ r, r ∉ writes i → x.read r = s.readReg r) (hpc : s.pc.toNat + 1 < 65536) :
      ExecAnswer i s { s with x := x, pc := BitVec.ofNat 16 (s.pc.toNat + 1) }
  | branch (k : BitVec 12) (hi : i = .br k) (hk : k.toNat ≤ s.pc.toNat + 2)
      (hpc : s.pc.toNat + 2 - k.toNat < 65536) :
      ExecAnswer i s (s.writePc (BitVec.ofNat 16 (s.pc.toNat + 2 - k.toNat)))

theorem rotate_readReg_other {a b c q : Reg} (ha : q ≠ a) (hb : q ≠ b) (hc : q ≠ c) (s : State) :
    (rotate a b c s).readReg q = s.readReg q := by
  rw [rotate_readReg, if_neg hb, if_neg ha, if_neg hc]

theorem setReg_readReg_other {r q : Reg} (h : q ≠ r) (s : State) (v : Word) :
    (s.setReg r v).readReg q = s.readReg q := RegFile.read_write_other s.x h v

theorem exec_answer {i : Instr} {s t : State} (h : exec i s = .next t) : ExecAnswer i s t := by
  cases i with
  | halt =>
    cases h
    exact .halt rfl
  | load reg value =>
    rcases execLoad_next h with ⟨r, rfl, hpc, rfl⟩ | ⟨-, rfl⟩
    · refine .compute _ nofun nofun (fun q hq => ?_) hpc
      exact setReg_readReg_other (by simpa [writes] using hq) s _
    · exact .fault _ nofun (by simp [endings])
  | swap reg1 reg2 reg3 =>
    rcases execSwap_next h with ⟨a, b, c, ⟨rfl, rfl, rfl⟩, hpc, rfl⟩ | ⟨-, rfl⟩
    · refine .compute _ nofun nofun (fun q hq => ?_) hpc
      obtain ⟨ha, hb, hc⟩ : q ≠ a ∧ q ≠ b ∧ q ≠ c := by simpa [writes] using hq
      exact rotate_readReg_other ha hb hc s
    · exact .fault _ nofun (by simp [endings])
  | add reg1 reg2 reg3 =>
    rcases execAdd_next h with ⟨a, b, c, ⟨rfl, rfl, rfl⟩, ⟨-, -, rfl⟩ | ⟨-, hpc, rfl⟩⟩ | ⟨-, rfl⟩
    · exact .fault _ nofun (by simp [endings])
    · refine .compute _ nofun nofun (fun q hq => ?_) hpc
      exact setReg_readReg_other (by simpa [writes] using hq) s _
    · exact .fault _ nofun (by simp [endings])
  | br offset =>
    rcases execBr_next h with ⟨-, rfl⟩ | ⟨hk, hpc, rfl⟩
    · exact .fault _ nofun (by simp [endings])
    · exact .branch offset rfl hk hpc

/-! ### The frame of an instruction (R15, R25, R30, R112) -/

theorem ExecAnswer.readReg_eq {i : Instr} {s t : State} (h : ExecAnswer i s t) {r : Reg}
    (hr : r ∉ writes i) : t.readReg r = s.readReg r := by
  cases h with
  | halt => rfl
  | fault c => rfl
  | compute x hi hbr hx hpc => exact hx r hr
  | branch k => rfl

theorem ExecAnswer.out_eq {i : Instr} {s t : State} (h : ExecAnswer i s t) (hi : i ≠ .halt) :
    t.out = s.out := by
  cases h with
  | halt hhalt => exact absurd hhalt hi
  | fault c => rfl
  | compute x => rfl
  | branch k => rfl

theorem ExecAnswer.status_cases {i : Instr} {s t : State} (h : ExecAnswer i s t) :
    t.status = s.status ∨ t.status ∈ endings i := by
  cases h with
  | halt hi => exact .inr (by simp [hi, endings])
  | fault c hi hc => exact .inr hc
  | compute x => exact .inl rfl
  | branch k => exact .inl rfl

theorem ExecAnswer.imem_eq {i : Instr} {s t : State} (h : ExecAnswer i s t) : t.imem = s.imem := by
  cases h <;> rfl

theorem ExecAnswer.addOverflowFaults_eq {i : Instr} {s t : State} (h : ExecAnswer i s t) :
    t.addOverflowFaults = s.addOverflowFaults := by
  cases h <;> rfl

/-- Settles O31: the frame of each shape of answer, instruction memory as a whole. -/
theorem instructionFrame : Obligations.InstructionFrame := by
  intro i s t h
  have ha := exec_answer h
  exact ⟨fun r hr => ha.readReg_eq hr, ha.out_eq, ha.status_cases, fun a => by rw [ha.imem_eq],
    fun n => by rw [ha.imem_eq], by rw [ha.imem_eq], ha.addOverflowFaults_eq⟩

/-! ### What a step can do (R20, R96) -/

/-- The ends an instruction other than Halt can produce are faults. -/
theorem isFault_of_mem_endings {i : Instr} {c : Status} (hi : i ≠ .halt) (hc : c ∈ endings i) :
    c.isFault = true := by
  cases i with
  | halt => exact absurd rfl hi
  | load | swap | add | br =>
    revert c
    simp [endings, Status.isFault]

theorem ne_running_of_isFault {c : Status} (h : c.isFault = true) : c ≠ .running := by
  rintro rfl
  cases h

theorem ne_halted_of_isFault {c : Status} (h : c.isFault = true) : c ≠ .halted := by
  rintro rfl
  cases h

/-- A step ends the run before EXECUTE, with no output, or it executes the instruction at the pc. -/
theorem step_cases {s t : State} (h : step s = .next t) :
    s.status = .running ∧
      ((∃ c : Status, c ≠ .running ∧ c ≠ .halted ∧ t = s.setStatus c) ∨
        ∃ i, decodedAt s = some i ∧ s.pc.toNat < s.imem.len.val ∧ ExecAnswer i s t) := by
  obtain ⟨hrun, ⟨-, rfl⟩ | ⟨w, -, -, rfl⟩ | ⟨w, i, hw, hi, hexec⟩⟩ := step_next h
  · exact ⟨hrun, .inl ⟨.faultPcRange, nofun, nofun, rfl⟩⟩
  · exact ⟨hrun, .inl ⟨.stoppedUnknownOpcode, nofun, nofun, rfl⟩⟩
  · exact ⟨hrun, .inr ⟨i, by rw [decodedAt, hw, Option.bind_some, hi], fetch_lt hw,
      exec_answer hexec⟩⟩

/-- Settles O17: only Halt's answer differs from the state before in its output. -/
theorem onlyHaltOutputs : Obligations.OnlyHaltOutputs := by
  intro s t h hout
  obtain ⟨-, ⟨c, -, -, rfl⟩ | ⟨i, hdec, -, ha⟩⟩ := step_cases h
  · exact absurd rfl hout
  · cases ha with
    | halt hi => exact ⟨hi ▸ hdec, rfl, rfl, rfl⟩
    | fault c => exact absurd rfl hout
    | compute x => exact absurd rfl hout
    | branch k => exact absurd rfl hout

/-- Settles O35: every end keeps the pc, and each of the two ways to go on writes its own. -/
theorem pcAfterStep : Obligations.PcAfterStep := by
  intro s t h
  obtain ⟨hrun, ⟨c, hc, -, rfl⟩ | ⟨i, hdec, -, ha⟩⟩ := step_cases h
  · exact ⟨fun _ => rfl, fun hgo => absurd hgo hc⟩
  · cases ha with
    | halt => exact ⟨fun _ => rfl, nofun⟩
    | fault c hi hc =>
      exact ⟨fun _ => rfl,
        fun hgo => absurd hgo (ne_running_of_isFault (isFault_of_mem_endings hi hc))⟩
    | compute x hi hbr hx hpc =>
      exact ⟨fun hend => absurd hrun hend, fun _ => ⟨i, hdec, hi, fun k hk => absurd hk (hbr k),
        fun _ => ofNat_toNat_of_lt hpc⟩⟩
    | branch k hi hk hpc =>
      subst hi
      refine ⟨fun hend => absurd hrun hend,
        fun _ => ⟨.br k, hdec, nofun, fun k' hk' => ?_, fun hbr => absurd rfl (hbr k)⟩⟩
      cases hk'
      exact ⟨hk, ofNat_toNat_of_lt hpc⟩

/-! ### The invariant (R21, R25, R30) -/

/-- A running machine has no output, so the invariant passes to any state that adds none, has not halted,
and has a pc in the range of R21. -/
theorem stateInv_of_out_eq {s t : State} (hinv : StateInv s) (hrun : s.status = .running)
    (himem : t.imem = s.imem) (hout : t.out = s.out) (hst : t.status ≠ .halted)
    (hpc : t.pc.toNat ≤ s.imem.len.val + 1) : StateInv t := by
  obtain ⟨hwf, -, hsout⟩ := hinv
  refine ⟨himem ▸ hwf, himem ▸ hpc, ?_⟩
  rw [hout, hsout, hrun, if_neg hst]
  rfl

/-- Executing inside instruction memory keeps the invariant: a target is at most pc + 2, which is at most
IMEM_LEN + 1 (R21). -/
theorem ExecAnswer.stateInv {i : Instr} {s t : State} (h : ExecAnswer i s t) (hinv : StateInv s)
    (hrun : s.status = .running) (hlt : s.pc.toNat < s.imem.len.val) : StateInv t := by
  have hnot : s.status ≠ .halted := by rw [hrun]; nofun
  have ⟨hwf, hrange, _⟩ := hinv
  cases h with
  | halt => exact ⟨hwf, hrange, rfl⟩
  | fault c hi hc =>
    exact stateInv_of_out_eq hinv hrun rfl rfl
      (ne_halted_of_isFault (isFault_of_mem_endings hi hc)) hrange
  | compute x hi hbr hx hpc =>
    refine stateInv_of_out_eq hinv hrun rfl rfl hnot ?_
    rw [ofNat_toNat_of_lt hpc]
    omega
  | branch k hi hk hpc =>
    refine stateInv_of_out_eq hinv hrun rfl rfl hnot ?_
    rw [State.writePc_pc, ofNat_toNat_of_lt hpc]
    omega

/-- Settles O36: an end before EXECUTE writes only status; the rest is `ExecAnswer.stateInv`. -/
theorem stepKeepsInvariant : Obligations.StepKeepsInvariant := by
  intro s t hinv h
  have ⟨_, hrange, _⟩ := hinv
  obtain ⟨hrun, ⟨c, -, hc, rfl⟩ | ⟨i, -, hlt, ha⟩⟩ := step_cases h
  · exact stateInv_of_out_eq hinv hrun rfl rfl hc hrange
  · exact ha.stateInv hinv hrun hlt

end Sys2Proof.Machine
end

section
/-!
PROOFS. The representation of instruction memory (20_memory.md R29): a canonical memory is determined by its
length and its words.
-/

namespace Sys2Proof.Machine

/-- Below IMEM_LEN a word is the two cells that hold it (R32). -/
theorem Memory.readWord_of_lt {m : Memory} {n : Nat} (h : n < m.len.val) :
    m.readWord? n = some (wordOfBytes (m.readByte (2 * n)) (m.readByte (2 * n + 1))) :=
  if_pos h

/-- No cell is listed beyond the last word of a canonical memory. -/
theorem Memory.readByte_beyond {m : Memory} (hwf : m.wf = true) {a : Nat} (ha : 2 * m.len.val ≤ a) :
    m.readByte a = Config.unlistedByte :=
  readCells_above hwf ha

/-- Memories that read the same word at an index both have hold the same two cells there. -/
theorem Memory.readByte_eq_of_readWord_eq {m n : Memory} {q : Nat} (hm : q < m.len.val)
    (hn : q < n.len.val) (h : m.readWord? q = n.readWord? q) :
    m.readByte (2 * q) = n.readByte (2 * q) ∧ m.readByte (2 * q + 1) = n.readByte (2 * q + 1) := by
  rw [Memory.readWord_of_lt hm, Memory.readWord_of_lt hn] at h
  exact wordOfBytes_inj (Option.some.inj h)

/-- Canonical memories of one length with the same words read the same at every cell: a cell inside memory
is a half of the word at half its address, and none beyond is listed. -/
theorem Memory.readByte_eq_of_words_eq {m n : Memory} (hm : m.wf = true) (hn : n.wf = true)
    (hlen : m.len = n.len) (hwords : ∀ q, m.readWord? q = n.readWord? q) (a : Nat) :
    m.readByte a = n.readByte a := by
  by_cases ha : a < 2 * m.len.val
  · have hlt : a / 2 < m.len.val := by omega
    obtain ⟨hlo, hhi⟩ := Memory.readByte_eq_of_readWord_eq hlt (hlen ▸ hlt) (hwords (a / 2))
    rcases Nat.mod_two_eq_zero_or_one a with hpar | hpar
    · rwa [show 2 * (a / 2) = a by omega] at hlo
    · rwa [show 2 * (a / 2) + 1 = a by omega] at hhi
  · have hbeyond : 2 * m.len.val ≤ a := Nat.le_of_not_lt ha
    rw [Memory.readByte_beyond hm hbeyond, Memory.readByte_beyond hn (hlen ▸ hbeyond)]

/-- Settles O5: the words determine every cell, and the cells determine a canonical list (`cells_ext`). -/
theorem sameWordsAreSameMemory : Obligations.SameWordsAreSameMemory := by
  intro m n hm hn hlen hwords
  have hcells : m.cells = n.cells :=
    cells_ext hm hn (Memory.readByte_eq_of_words_eq hm hn hlen hwords)
  cases m
  cases n
  exact congrArg₂ Memory.mk hlen hcells

end Sys2Proof.Machine
end

section
/-!
PROOFS. The encoding (30_encoding.md R52 to R54, R58): the decoder and the encoder against each other, the
words that decode to an executable instruction, and the words that stop the run.
-/

namespace Sys2Proof

/-! ### The fields of an encoded word (R47, R58) -/

theorem encode_load_fields (reg : RegField) (value : BitVec 8) :
    reg1Field (encode (.load reg value)) = reg ∧ valueField (encode (.load reg value)) = value := by
  have hreg := reg.isLt
  have hvalue := value.isLt
  constructor <;> apply BitVec.eq_of_toNat_eq
  · rw [reg1Field_toNat, encode_load_toNat]
    omega
  · rw [valueField_toNat, encode_load_toNat]
    omega

/-- A word that is an opcode's base plus three digits has these digits as its register fields. -/
theorem regFields_of_toNat {w : Word} {op : Nat} {reg1 reg2 reg3 : RegField}
    (h : w.toNat = 4096 * op + 256 * reg1.toNat + 16 * reg2.toNat + reg3.toNat) :
    reg1Field w = reg1 ∧ reg2Field w = reg2 ∧ reg3Field w = reg3 := by
  have h1 := reg1.isLt
  have h2 := reg2.isLt
  have h3 := reg3.isLt
  refine ⟨?_, ?_, ?_⟩ <;> apply BitVec.eq_of_toNat_eq
  · rw [reg1Field_toNat, h]
    omega
  · rw [reg2Field_toNat, h]
    omega
  · rw [reg3Field_toNat, h]
    omega

theorem encode_br_field (offset : BitVec 12) : offsetField (encode (.br offset)) = offset := by
  have hoffset := offset.isLt
  apply BitVec.eq_of_toNat_eq
  rw [offsetField_toNat, encode_br_toNat]
  omega

/-! ### Decoder and encoder (R58) -/

/-- The opcode field of an encoded word selects the arm, and the arm reads back the fields. -/
theorem decode_encode (i : Instr) : decode (encode i) = some i := by
  cases i with
  | halt => rfl
  | load reg value =>
    have hop : opcodeField (encode (.load reg value)) = 1 := Laws.OpcodeField.load reg value
    obtain ⟨hreg, hvalue⟩ := encode_load_fields reg value
    rw [decode, hop, hreg, hvalue]
    rfl
  | swap reg1 reg2 reg3 =>
    have hop : opcodeField (encode (.swap reg1 reg2 reg3)) = 2 := Laws.OpcodeField.swap reg1 reg2 reg3
    obtain ⟨h1, h2, h3⟩ := regFields_of_toNat (op := 2) (encode_swap_toNat reg1 reg2 reg3)
    rw [decode, hop, h1, h2, h3]
    rfl
  | add reg1 reg2 reg3 =>
    have hop : opcodeField (encode (.add reg1 reg2 reg3)) = 3 := Laws.OpcodeField.add reg1 reg2 reg3
    obtain ⟨h1, h2, h3⟩ := regFields_of_toNat (op := 3) (encode_add_toNat reg1 reg2 reg3)
    rw [decode, hop, h1, h2, h3]
    rfl
  | br offset =>
    have hop : opcodeField (encode (.br offset)) = 4 := Laws.OpcodeField.br offset
    rw [decode, hop, encode_br_field]
    rfl

/-- From 0x1000 on every bit of a word that decodes is in its opcode or in a field its variant carries. -/
theorem encode_of_decode {w : Word} {i : Instr} (hw : 0x1000 ≤ w.toNat) (h : decode w = some i) :
    encode i = w := by
  apply BitVec.eq_of_toNat_eq
  obtain ⟨hlt, -⟩ | ⟨-, hlt, hd⟩ | ⟨hle, hlt, hd⟩ | ⟨hle, hlt, hd⟩ | ⟨hle, hlt, hd⟩ | ⟨-, hd⟩ :=
    decode_cases w
  · omega
  · cases hd.symm.trans h
    rw [encode_load_toNat, reg1Field_toNat, valueField_toNat]
    omega
  · cases hd.symm.trans h
    rw [encode_swap_toNat, reg1Field_toNat, reg2Field_toNat, reg3Field_toNat]
    omega
  · cases hd.symm.trans h
    rw [encode_add_toNat, reg1Field_toNat, reg2Field_toNat, reg3Field_toNat]
    omega
  · cases hd.symm.trans h
    rw [encode_br_toNat, offsetField_toNat]
    omega
  · cases hd.symm.trans h

theorem decode_eq_halt_of_lt {w : Word} (hw : w.toNat < 0x1000) : decode w = some .halt := by
  obtain ⟨-, hd⟩ | ⟨hle, -⟩ | ⟨hle, -⟩ | ⟨hle, -⟩ | ⟨hle, -⟩ | ⟨hle, -⟩ := decode_cases w
  · exact hd
  all_goals omega

/-- Encoding loses only the free bits of Halt (R51). -/
theorem encode_eq_iff_of_decode {w : Word} {i : Instr} (h : decode w = some i) :
    encode i = w ↔ 0x1000 ≤ w.toNat ∨ w = 0x0000#16 := by
  rcases Nat.lt_or_ge w.toNat 0x1000 with hlt | hge
  · cases (decode_eq_halt_of_lt hlt).symm.trans h
    exact ⟨fun hw => .inr hw.symm, fun hw => (hw.resolve_left (Nat.not_le_of_lt hlt)).symm⟩
  · exact iff_of_true (encode_of_decode hge h) (.inl hge)

/-- Settles O7: the encoder's arms by definition, then the two directions. -/
theorem decodeAndEncodeAgree : Obligations.DecodeAndEncodeAgree :=
  ⟨rfl, fun _ _ => rfl, fun _ _ _ => rfl, fun _ _ _ => rfl, fun _ => rfl, decode_encode,
    fun _ _ => encode_eq_iff_of_decode⟩

/-! ### Executable words (R53, R54) -/

/-- Settles O9: in each range of `decode_cases` the validation is a bound on the digits it checks. -/
theorem executableWords : Obligations.ExecutableWords := by
  intro w
  obtain ⟨hlt, hd⟩ | ⟨hle, hlt, hd⟩ | ⟨hle, hlt, hd⟩ | ⟨hle, hlt, hd⟩ | ⟨hle, hlt, hd⟩ | ⟨hle, hd⟩ :=
    decode_cases w
  all_goals rw [hd]
  · rw [Option.map_some, wellFormed_halt]
    exact iff_of_true rfl (by omega)
  · rw [Option.map_some, Option.some_inj, wellFormed_load_iff, reg1Field_toNat]
    omega
  · rw [Option.map_some, Option.some_inj, wellFormed_swap_iff, reg1Field_toNat, reg2Field_toNat,
      reg3Field_toNat]
    omega
  · rw [Option.map_some, Option.some_inj, wellFormed_add_iff, reg1Field_toNat, reg2Field_toNat,
      reg3Field_toNat]
    omega
  · rw [Option.map_some, wellFormed_br]
    exact iff_of_true rfl (by omega)
  · exact iff_of_false nofun (by omega)

/-! ### Undefined opcodes (R52, R116) -/

theorem decode_eq_none_iff (w : Word) : decode w = none ↔ 0x5000 ≤ w.toNat := by
  obtain ⟨hlt, hd⟩ | ⟨-, hlt, hd⟩ | ⟨-, hlt, hd⟩ | ⟨-, hlt, hd⟩ | ⟨-, hlt, hd⟩ | ⟨hle, hd⟩ :=
    decode_cases w
  case inr.inr.inr.inr.inr => exact iff_of_true hd hle
  all_goals exact iff_of_false (hd ▸ nofun) (by omega)

end Sys2Proof

namespace Sys2Proof.Machine

/-- A fetched word that does not decode ends the step before EXECUTE (R96). -/
theorem step_of_decode_eq_none {s : State} {w : Word} (hrun : s.status = .running)
    (hfetch : fetch s = some w) (hdec : decode w = none) :
    step s = .next (s.setStatus .stoppedUnknownOpcode) := by
  simp only [step, fetchDecode, if_pos hrun, hfetch, hdec]
  rfl

/-- Settles O13: the words from 0x5000 on are those without a match, and such a word ends the step. -/
theorem undefinedOpcodesStopSilently : Obligations.UndefinedOpcodesStopSilently :=
  ⟨decode_eq_none_iff, fun _ w hrun hfetch hw =>
    step_of_decode_eq_none hrun hfetch ((decode_eq_none_iff w).mpr hw)⟩

end Sys2Proof.Machine
end

section
/-!
PROOFS. The decoder (40_decoder.md R60 to R68): the words of the spec's table, the decoder block's outputs,
and the machine's validation of register indices against the well-formedness check.
-/

namespace Sys2Proof

/-! ### The decoder and its block (R63, R68) -/

/-- Settles O8: each word is evaluated. -/
theorem specWordsDecode : Obligations.SpecWordsDecode :=
  ⟨rfl, rfl, rfl, rfl, rfl, rfl⟩

theorem decoderSignals_matched_iff (w : Word) :
    (decoderSignals w).matched = true ↔ w.toNat / 4096 ≤ 4 := by
  rw [← opcodeField_toNat]
  exact decide_eq_true_iff

/-- Where the block matches, its kind is the low three bits of the opcode (R68). -/
theorem decoderSignals_kind_of_matched {w : Word} (h : (decoderSignals w).matched = true) :
    (decoderSignals w).kind = some (BitVec.ofNat 3 (w.toNat / 4096)) := by
  have hkind : w.extractLsb' 12 3 = BitVec.ofNat 3 (w.toNat / 4096) := by
    rw [BitVec.extractLsb', Nat.shiftRight_eq_div_pow]
  exact (if_pos h).trans (congrArg some hkind)

/-- Settles O10: match and kind by the two lemmas above, the fields by their laws as numbers (R47), and
idx_ok by definition. -/
theorem decoderBlockOutputs : Obligations.DecoderBlockOutputs := fun w =>
  ⟨decoderSignals_matched_iff w, decoderSignals_kind_of_matched, reg1Field_toNat w, reg2Field_toNat w,
    reg3Field_toNat w, valueField_toNat w, offsetField_toNat w, rfl⟩

end Sys2Proof

namespace Sys2Proof.Machine

/-! ### Validation (R67, R117) -/

/-- An ill-formed instruction ends the run before anything is read or written. -/
theorem exec_of_wellFormed_eq_false {i : Instr} (h : i.wellFormed = false) (s : State) :
    exec i s = .next (s.setStatus .faultRegIndex) := by
  cases i with
  | halt => cases h
  | load reg value =>
    rw [← Bool.not_eq_true, wellFormed_load_iff] at h
    exact withReg_bad (by omega) s _
  | swap reg1 reg2 reg3 =>
    rw [← Bool.not_eq_true, wellFormed_swap_iff] at h
    exact withRegs_bad (by omega) s _
  | add reg1 reg2 reg3 =>
    rw [← Bool.not_eq_true, wellFormed_add_iff] at h
    exact withRegs_bad (by omega) s _
  | br offset => cases h

/-- A well-formed instruction never produces FAULT_REG_INDEX: its indices name registers. -/
theorem exec_status_ne_faultRegIndex {i : Instr} {s t : State} (hwf : i.wellFormed = true)
    (hs : s.status ≠ .faultRegIndex) (h : exec i s = .next t) : t.status ≠ .faultRegIndex := by
  cases i with
  | halt =>
    cases h
    nofun
  | load reg value =>
    rcases execLoad_next h with ⟨r, -, -, rfl⟩ | ⟨hbad, -⟩
    · exact hs
    · rw [wellFormed_load_iff] at hwf
      omega
  | swap reg1 reg2 reg3 =>
    rcases execSwap_next h with ⟨a, b, c, -, -, rfl⟩ | ⟨hbad, -⟩
    · exact hs
    · rw [wellFormed_swap_iff] at hwf
      omega
  | add reg1 reg2 reg3 =>
    rcases execAdd_next h with ⟨a, b, c, -, ⟨-, -, rfl⟩ | ⟨-, -, rfl⟩⟩ | ⟨hbad, -⟩
    · nofun
    · exact hs
    · rw [wellFormed_add_iff] at hwf
      omega
  | br offset =>
    rcases execBr_next h with ⟨-, rfl⟩ | ⟨-, -, rfl⟩
    · nofun
    · exact hs

/-- No pc inside instruction memory is one at which the model's own stop can happen (R21). -/
theorem exec_next_of_lt (i : Instr) {s : State} (hlt : s.pc.toNat < s.imem.len.val) :
    ∃ t, exec i s = .next t := by
  obtain hnext | ⟨-, hpc⟩ := exec_nextOrOverflowAt i s
  · exact hnext
  · have := pc_add_two_lt hlt
    omega

/-- Settles O30: an ill-formed instruction faults, and a well-formed one leaves another status. -/
theorem wellFormedIsValidation : Obligations.WellFormedIsValidation := by
  intro i s hrun hlt
  obtain ⟨t, ht⟩ := exec_next_of_lt i hlt
  refine ⟨t, ht, ?_⟩
  cases hwf : i.wellFormed with
  | false =>
    cases (exec_of_wellFormed_eq_false hwf s).symm.trans ht
    exact iff_of_true rfl rfl
  | true =>
    have hs : s.status ≠ .faultRegIndex := by rw [hrun]; nofun
    exact iff_of_false nofun (exec_status_ne_faultRegIndex hwf hs ht)

end Sys2Proof.Machine
end

section
/-!
PROOFS. Halt (41_halt.md R69 to R71): its encodings, its one answer from every state, and the line a host
prints after it.
-/

namespace Sys2Proof

/-- The words of opcode 0, whatever their free bits (R51, R69); from 0x1000 on a word is the encoding of
what it decodes to, and Halt's encoding is 0x0000. -/
theorem decode_eq_halt_iff (w : Word) : decode w = some .halt ↔ w.toNat < 0x1000 := by
  refine ⟨fun h => Nat.lt_of_not_le fun hw => ?_, decode_eq_halt_of_lt⟩
  have henc : encode .halt = w := encode_of_decode hw h
  subst henc
  exact absurd hw (by decide)

end Sys2Proof

namespace Sys2Proof.Machine

theorem exec_halt_eq (s : State) :
    exec .halt s = .next ((s.emit (s.readReg .r0)).setStatus .halted) :=
  execHalt_eq s

/-- Settles O16: Halt answers one state, whose every field is given by the laws of its two updates. -/
theorem haltOutputsRegisterZero : Obligations.HaltOutputsRegisterZero :=
  ⟨rfl, decode_eq_halt_iff, fun s => ⟨_, exec_halt_eq s, rfl, rfl, rfl, rfl, rfl, rfl, rfl⟩⟩

/-- R70: in a halted state the line is the decimal rendering of the value the output latch holds. -/
theorem printedLine_of_halted {s : State} {v : Word} (hst : s.status = .halted) (hout : s.out = some v) :
    printedLine s = some (Nat.repr v.toNat) := by
  rw [printedLine, hst, State.outData, hout]
  rfl

/-- Settles O18: the state Halt answers is halted, with the old x[0] in its output latch. -/
theorem haltPrintsDecimal : Obligations.HaltPrintsDecimal := by
  intro s t h
  cases (exec_halt_eq s).symm.trans h
  exact printedLine_of_halted rfl rfl

end Sys2Proof.Machine
end

section
/-!
PROOFS. Load (42_load.md R72 to R74): its one answer at a register 0, 1 or 2 inside instruction memory.
-/

namespace Sys2Proof.Machine

/-- The fall-through of an instruction whose writes kept the pc of a state inside instruction memory: there
is room for pc + 1 (R21), and nothing else changes (R99). -/
theorem advance_of_pc_eq {s u : State} (hlt : s.pc.toNat < s.imem.len.val) (hpc : u.pc = s.pc) :
    ∃ v : Word, advance u = .next (u.writePc v) ∧ v.toNat = s.pc.toNat + 1 := by
  have hroom : u.pc.toNat + 1 < 65536 := by
    have := pc_add_two_lt hlt
    rw [hpc]
    omega
  exact ⟨_, setPc_of_lt hroom u, by rw [ofNat_toNat_of_lt hroom, hpc]⟩

/-- Zero extension keeps the value (R10, R73): 8 bits fit in 16. -/
theorem zext16_toNat (value : BitVec 8) : (zext16 value).toNat = value.toNat :=
  BitVec.toNat_setWidth_of_le (by decide)

theorem exec_load_field (r : Reg) (value : BitVec 8) (s : State) :
    exec (.load r.field value) s = advance (s.setReg r (zext16 value)) :=
  withReg_field r s _

/-- Settles O19: a Load is one register write, which keeps the pc, and the fall-through. -/
theorem loadWritesZeroExtendedImmediate : Obligations.LoadWritesZeroExtendedImmediate := by
  intro r value s hlt
  obtain ⟨v, hv, hpc⟩ := advance_of_pc_eq (u := s.setReg r (zext16 value)) hlt rfl
  refine ⟨_, (exec_load_field r value s).trans hv, ?_, fun q hq => ?_, hpc, rfl, rfl, rfl, rfl⟩
  · rw [State.writePc_readReg, State.setReg_readReg_same, zext16_toNat]
  · rw [State.writePc_readReg, setReg_readReg_other hq]

end Sys2Proof.Machine
end

section
/-!
PROOFS. Swap (43_swap.md R75 to R80): what its three writes leave in each named register, its one answer
inside instruction memory, and what two Swaps do.
-/

namespace Sys2Proof.Machine

/-! ### The registers after the three live writes (R76) -/

/-- reg1 receives reg2's value, which the first write has replaced when reg2 is the scratch register. -/
theorem rotate_readReg_reg1 (a b c : Reg) (s : State) :
    (rotate a b c s).readReg a = if b = c then s.readReg a else s.readReg b := by
  rw [rotate_readReg]
  by_cases hab : a = b
  · subst hab
    simp only [ite_self]
  · rw [if_neg hab, if_pos rfl]

/-- reg2 receives the scratch register's copy of reg1, which the second write has replaced when reg1 is the
scratch register. -/
theorem rotate_readReg_reg2 (a b c : Reg) (s : State) :
    (rotate a b c s).readReg b = if c = a then s.readReg b else s.readReg a := by
  rw [rotate_readReg, if_pos rfl]
  split_ifs with hca hbc
  · rw [hbc, hca]
  · rfl
  · rfl

/-- The last write copies the scratch register, so reg2 and reg3 end equal (R80). -/
theorem rotate_readReg_reg3 (a b c : Reg) (s : State) :
    (rotate a b c s).readReg c = (rotate a b c s).readReg b := by
  rw [rotate, State.setReg_readReg_same, State.setReg_readReg, ite_eq_right_iff]
  exact fun _ => rfl

/-- A Swap only copies: each entry of the table of values is an old register's (R80). -/
theorem exists_rotate_readReg_eq (a b c q : Reg) (s : State) :
    ∃ p, (rotate a b c s).readReg q = s.readReg p := by
  rw [rotate_readReg]
  split_ifs <;> exact ⟨_, rfl⟩

/-! ### The answer of a Swap -/

theorem exec_swap_field (a b c : Reg) (s : State) :
    exec (.swap a.field b.field c.field) s = advance (rotate a b c s) :=
  withRegs_field a b c s _

/-- Settles O21: the answer is the three writes, which keep the pc, and the fall-through; each row of R78
reads the named registers under its own equalities. -/
theorem swapByIndexCoincidence : Obligations.SwapByIndexCoincidence := by
  intro a b c s hlt
  obtain ⟨v, hv, hpc⟩ := advance_of_pc_eq (u := rotate a b c s) hlt rfl
  have hreg1 := rotate_readReg_reg1 a b c s
  have hreg2 := rotate_readReg_reg2 a b c s
  have hreg3 := (rotate_readReg_reg3 a b c s).trans hreg2
  refine ⟨_, (exec_swap_field a b c s).trans hv, ?distinct, ?reg1_reg2, ?reg1_reg3, ?reg2_reg3, ?all,
    fun q ha hb hc => rotate_readReg_other ha hb hc s, hpc, rfl, rfl, rfl, rfl⟩
  case distinct =>
    intro _ hac hbc
    exact ⟨hreg1.trans (if_neg hbc), hreg2.trans (if_neg hac.symm), hreg3.trans (if_neg hac.symm)⟩
  case reg1_reg2 =>
    rintro rfl hca
    exact ⟨hreg2.trans (if_neg hca), hreg3.trans (if_neg hca)⟩
  case reg1_reg3 =>
    rintro rfl hba
    exact ⟨hreg1.trans (if_neg hba), hreg2.trans (if_pos rfl)⟩
  case reg2_reg3 =>
    rintro rfl hab
    exact ⟨hreg1.trans (if_pos rfl), hreg2.trans (if_neg hab.symm)⟩
  case all =>
    rintro rfl rfl
    exact hreg1.trans (if_pos rfl)

/-- Settles O20: the first row of R78 with the frame. -/
theorem swapDistinctExchanges : Obligations.SwapDistinctExchanges := by
  intro a b c s hab hac hbc hlt
  obtain ⟨t, ht, hdistinct, -, -, -, -, -, hframe⟩ := swapByIndexCoincidence a b c s hlt
  obtain ⟨ha, hb, hc⟩ := hdistinct hab hac hbc
  exact ⟨t, ht, ha, hb, hc, hframe⟩

/-- Settles O22: the second Swap exchanges what the first one exchanged; its reg1 is the old reg2, which the
scratch register then holds. -/
theorem swapTwiceUndoesExchange : Obligations.SwapTwiceUndoesExchange := by
  intro a b c s hab hac hbc hlt
  obtain ⟨t, ht, hta, htb, -, htpc, -, -, htimem, -⟩ :=
    swapDistinctExchanges a b c s hab hac hbc (by omega)
  have hroom : t.pc.toNat < t.imem.len.val := by rwa [htpc, htimem]
  obtain ⟨u, hu, hua, hub, huc, hupc, -⟩ := swapDistinctExchanges a b c t hab hac hbc hroom
  exact ⟨t, u, ht, hu, hua.trans htb, hub.trans hta, huc.trans hta, by rw [hupc, htpc]⟩

/-- Settles O23: a Swap that executes only copies, and one that faults keeps every register. -/
theorem swapCreatesNoValue : Obligations.SwapCreatesNoValue := by
  intro reg1 reg2 reg3 s t h q
  obtain ⟨a, b, c, -, -, rfl⟩ | ⟨-, rfl⟩ := execSwap_next h
  · exact exists_rotate_readReg_eq a b c q s
  · exact ⟨q, rfl⟩

end Sys2Proof.Machine
end

section
/-!
PROOFS. Add (44_add.md R81 to R85): its answers at registers 0, 1 and 2 in both modes, its commutativity, and
the simulation of the strict mode's runs by the default mode's.
-/

namespace Sys2Proof.Machine

/-! ### The answers of an Add (R81 to R83) -/

theorem exec_add_bad {reg1 reg2 reg3 : RegField}
    (h : 3 ≤ reg1.toNat ∨ 3 ≤ reg2.toNat ∨ 3 ≤ reg3.toNat) (s : State) :
    exec (.add reg1 reg2 reg3) s = .next (s.setStatus .faultRegIndex) :=
  withRegs_bad h s _

theorem exec_add_field (a b c : Reg) (s : State) :
    exec (.add a.field b.field c.field) s =
      if s.addOverflowFaults && sumOverflows (s.readReg a) (s.readReg b) then
        raise .arithmeticOverflow s
      else advance (s.setReg c (wrappedSum (s.readReg a) (s.readReg b))) :=
  withRegs_field a b c s _

/-- The Add on these sources raises ArithmeticOverflow: strict mode and an exact sum above 65535 (R120). -/
def AddRaises (a b : Reg) (s : State) : Prop :=
  s.addOverflowFaults = true ∧ 65535 < (s.readReg a).toNat + (s.readReg b).toNat

theorem addRaises_iff (a b : Reg) (s : State) :
    (s.addOverflowFaults && sumOverflows (s.readReg a) (s.readReg b)) = true ↔ AddRaises a b s := by
  rw [Bool.and_eq_true, sumOverflows_iff, AddRaises]

theorem exec_add_of_raises {a b : Reg} {s : State} (h : AddRaises a b s) (c : Reg) :
    exec (.add a.field b.field c.field) s = .next (s.setStatus .faultAddOverflow) := by
  rw [exec_add_field, if_pos ((addRaises_iff a b s).mpr h)]
  rfl

theorem exec_add_of_not_raises {a b : Reg} {s : State} (h : ¬ AddRaises a b s) (c : Reg) :
    exec (.add a.field b.field c.field) s =
      advance (s.setReg c (wrappedSum (s.readReg a) (s.readReg b))) := by
  rw [exec_add_field, if_neg (mt (addRaises_iff a b s).mp h)]

theorem not_addRaises_of_default {s : State} (h : s.addOverflowFaults = false) (a b : Reg) :
    ¬ AddRaises a b s := by
  rintro ⟨hstrict, -⟩
  exact Bool.false_ne_true (h.symm.trans hstrict)

theorem not_addRaises_of_sum_le {a b : Reg} {s : State}
    (h : (s.readReg a).toNat + (s.readReg b).toNat ≤ 65535) : ¬ AddRaises a b s :=
  fun ⟨_, hsum⟩ => Nat.not_lt_of_le h hsum

/-- An Add that raises nothing, in either mode, is one register write, which keeps the pc, and the
fall-through. -/
theorem exec_add_wraps {a b : Reg} {s : State} (h : ¬ AddRaises a b s) (c : Reg)
    (hlt : s.pc.toNat < s.imem.len.val) :
    ∃ t, exec (.add a.field b.field c.field) s = .next t ∧
      (t.readReg c).toNat = ((s.readReg a).toNat + (s.readReg b).toNat) % 65536 ∧
      (∀ q, q ≠ c → t.readReg q = s.readReg q) ∧
      t.pc.toNat = s.pc.toNat + 1 ∧ t.status = s.status ∧ t.out = s.out ∧ t.imem = s.imem ∧
      t.addOverflowFaults = s.addOverflowFaults := by
  obtain ⟨v, hv, hpc⟩ :=
    advance_of_pc_eq (u := s.setReg c (wrappedSum (s.readReg a) (s.readReg b))) hlt rfl
  refine ⟨_, (exec_add_of_not_raises h c).trans hv, ?_, fun q hq => ?_, hpc, rfl, rfl, rfl, rfl⟩
  · rw [State.writePc_readReg, State.setReg_readReg_same, wrappedSum_toNat]
  · rw [State.writePc_readReg, setReg_readReg_other hq]

/-- Settles O24: in default mode no Add raises. -/
theorem addWrapsByDefault : Obligations.AddWrapsByDefault :=
  fun a b c _ hmode hlt => exec_add_wraps (not_addRaises_of_default hmode a b) c hlt

/-! ### Commutativity (R85) -/

theorem sumOverflows_comm (u v : Word) : sumOverflows u v = sumOverflows v u := by
  rw [sumOverflows, sumOverflows, exactSum, exactSum, Nat.add_comm]

theorem wrappedSum_comm (u v : Word) : wrappedSum u v = wrappedSum v u := by
  rw [wrappedSum, wrappedSum, exactSum, exactSum, Nat.add_comm]

/-- Settles O26: the overflow test and the sum are symmetric, and a bad index stays bad in either place. -/
theorem addCommutes : Obligations.AddCommutes := by
  intro reg1 reg2 reg3 s
  rcases fields_cases reg1 reg2 reg3 with ⟨a, b, c, rfl, rfl, rfl⟩ | hbad
  · rw [exec_add_field, exec_add_field, sumOverflows_comm, wrappedSum_comm]
  · rw [exec_add_bad hbad, exec_add_bad (or_left_comm.mp hbad)]

/-! ### The same machine in default mode (R83) -/

/-- The state with ADD_OVERFLOW_FAULTS set to false (R8). -/
def State.inDefaultMode (s : State) : State := { s with addOverflowFaults := false }

/-- An answer with its next state, if it has one, put in default mode. -/
def resultInDefaultMode : Result → Result
  | .next t => .next t.inDefaultMode
  | .fault r => .fault r
  | .refused r => .refused r

theorem setPc_inDefaultMode (n : Nat) (s : State) :
    setPc n s.inDefaultMode = resultInDefaultMode (setPc n s) := by
  unfold setPc
  split <;> rfl

theorem advance_inDefaultMode (s : State) :
    advance s.inDefaultMode = resultInDefaultMode (advance s) :=
  setPc_inDefaultMode _ s

theorem exec_add_inDefaultMode {a b : Reg} {s : State} (h : ¬ AddRaises a b s) (c : Reg) :
    exec (.add a.field b.field c.field) s.inDefaultMode =
      resultInDefaultMode (exec (.add a.field b.field c.field) s) := by
  rw [exec_add_of_not_raises h, exec_add_of_not_raises (not_addRaises_of_default rfl a b)]
  exact advance_inDefaultMode (s.setReg c (wrappedSum (s.readReg a) (s.readReg b)))

/-- Settles O25: the fault by `exec_add_of_raises`; otherwise the answer of `exec_add_wraps`, whose sum needs
no reduction. -/
theorem addFaultsInStrictMode : Obligations.AddFaultsInStrictMode := by
  intro a b c s hmode
  refine ⟨fun hsum => exec_add_of_raises ⟨hmode, hsum⟩ c, fun hsum hlt => ?_⟩
  have hno : ¬ AddRaises a b s := not_addRaises_of_sum_le hsum
  obtain ⟨t, ht, hval, hframe, hpc, hst, hout, himem, hmode'⟩ := exec_add_wraps hno c hlt
  have hdef := exec_add_inDefaultMode hno c
  rw [ht] at hdef
  rw [Nat.mod_eq_of_lt (Nat.lt_succ_of_le hsum)] at hval
  exact ⟨t, ht, hdef, hval, hframe, hpc, hst, hout, himem, hmode'.trans hmode⟩

/-! ### The simulation (R83 over runs)

Only Add reads the mode, so a state and the same state in default mode answer alike unless an Add
overflows. -/

theorem exec_br_of_lt {offset : BitVec 12} {s : State} (h : s.pc.toNat + 2 < offset.toNat) :
    exec (.br offset) s = .next (s.setStatus .faultPcRange) :=
  if_pos h

theorem exec_br_of_le {offset : BitVec 12} {s : State} (h : offset.toNat ≤ s.pc.toNat + 2) :
    exec (.br offset) s = setPc (s.pc.toNat + 2 - offset.toNat) s :=
  if_neg (Nat.not_lt_of_le h)

/-- Execution: an Add that raises is the one exception. -/
theorem exec_inDefaultMode (i : Instr) (s : State) :
    exec i s = .next (s.setStatus .faultAddOverflow) ∨
      exec i s.inDefaultMode = resultInDefaultMode (exec i s) := by
  cases i with
  | halt => exact .inr rfl
  | load reg value =>
    right
    rcases field_cases reg with ⟨r, rfl⟩ | hbad
    · rw [exec_load_field, exec_load_field]
      exact advance_inDefaultMode (s.setReg r (zext16 value))
    · rw [exec, exec, execLoad, execLoad, withReg_bad hbad, withReg_bad hbad]
      rfl
  | swap reg1 reg2 reg3 =>
    right
    rcases fields_cases reg1 reg2 reg3 with ⟨a, b, c, rfl, rfl, rfl⟩ | hbad
    · rw [exec_swap_field, exec_swap_field]
      exact advance_inDefaultMode (rotate a b c s)
    · rw [exec, exec, execSwap, execSwap, withRegs_bad hbad, withRegs_bad hbad]
      rfl
  | add reg1 reg2 reg3 =>
    rcases fields_cases reg1 reg2 reg3 with ⟨a, b, c, rfl, rfl, rfl⟩ | hbad
    · by_cases hraise : AddRaises a b s
      · exact .inl (exec_add_of_raises hraise c)
      · exact .inr (exec_add_inDefaultMode hraise c)
    · right
      rw [exec_add_bad hbad, exec_add_bad hbad]
      rfl
  | br offset =>
    right
    rcases Nat.lt_or_ge (s.pc.toNat + 2) offset.toNat with hlt | hle
    · rw [exec_br_of_lt hlt, exec_br_of_lt (s := s.inDefaultMode) hlt]
      rfl
    · rw [exec_br_of_le hle, exec_br_of_le (s := s.inDefaultMode) hle]
      exact setPc_inDefaultMode _ s

/-- A fetch beyond memory ends the step before DECODE (R96, R118). -/
theorem step_of_fetch_eq_none {s : State} (hrun : s.status = .running) (hfetch : fetch s = none) :
    step s = .next (s.setStatus .faultPcRange) := by
  simp only [step, fetchDecode, if_pos hrun, hfetch]
  rfl

/-- A fetched word that decodes is executed at the same state (R96). -/
theorem step_of_decode_eq_some {s : State} {w : Word} {i : Instr} (hrun : s.status = .running)
    (hfetch : fetch s = some w) (hdec : decode w = some i) : step s = exec i s := by
  simp only [step, fetchDecode, if_pos hrun, hfetch, hdec]

/-- A step: status test, fetch and decode do not depend on the mode. -/
theorem step_inDefaultMode (s : State) :
    step s = .next (s.setStatus .faultAddOverflow) ∨
      step s.inDefaultMode = resultInDefaultMode (step s) := by
  by_cases hrun : s.status = .running
  · have hrun' : s.inDefaultMode.status = .running := hrun
    cases hfetch : fetch s with
    | none =>
      right
      rw [step_of_fetch_eq_none hrun hfetch, step_of_fetch_eq_none hrun' hfetch]
      rfl
    | some w =>
      cases hdec : decode w with
      | none =>
        right
        rw [step_of_decode_eq_none hrun hfetch hdec, step_of_decode_eq_none hrun' hfetch hdec]
        rfl
      | some i =>
        rw [step_of_decode_eq_some hrun hfetch hdec, step_of_decode_eq_some hrun' hfetch hdec]
        exact exec_inDefaultMode i s
  · right
    rw [terminalStatusTakesNoStep s hrun, terminalStatusTakesNoStep s.inDefaultMode hrun]
    rfl

/-- A run: it ends where an Add raises, and until then each step is simulated. -/
theorem runFor_inDefaultMode (k : Nat) {s : State} (h : (runFor k s).status ≠ .faultAddOverflow) :
    runFor k s.inDefaultMode = (runFor k s).inDefaultMode := by
  induction k generalizing s with
  | zero => rfl
  | succ k ih =>
    rcases step_inDefaultMode s with hraise | hdef
    · rw [runFor_succ_next hraise, runFor_of_ended rfl] at h
      exact absurd rfl h
    · cases hstep : step s with
      | next t =>
        rw [hstep] at hdef
        rw [runFor_succ_next hstep] at h ⊢
        rw [runFor_succ_next hdef]
        exact ih h
      | fault r =>
        rw [hstep] at hdef
        rw [runFor_succ_fault hstep, runFor_succ_fault hdef]
      | refused r =>
        rw [hstep] at hdef
        rw [runFor_succ_refused hstep, runFor_succ_refused hdef]

/-- Settles O42: the simulation from the state in strict mode. -/
theorem strictModeOnlyStopsEarlier : Obligations.StrictModeOnlyStopsEarlier :=
  fun k _ h => runFor_inDefaultMode k h

end Sys2Proof.Machine
end

section
/-!
PROOFS. Branch (45_branch.md R88 to R94): its target, its fault below index 0, and control flow as a function
of pc, status and program alone in default mode, with the endless repetition that follows from it.
-/

namespace Sys2Proof.Machine

/-! ### The two answers of a Branch (R88 to R90) -/

/-- A Branch inside instruction memory with a legal offset writes its exact target and nothing else (R88). -/
theorem exec_br_target {k : BitVec 12} {s : State} (hlt : s.pc.toNat < s.imem.len.val)
    (hk : k.toNat ≤ s.pc.toNat + 2) :
    ∃ v : Word, exec (.br k) s = .next (s.writePc v) ∧ v.toNat + k.toNat = s.pc.toNat + 2 := by
  have hroom : s.pc.toNat + 2 - k.toNat < 65536 :=
    Nat.lt_of_le_of_lt (Nat.sub_le _ _) (pc_add_two_lt hlt)
  refine ⟨_, (exec_br_of_le hk).trans (setPc_of_lt hroom s), ?_⟩
  rw [ofNat_toNat_of_lt hroom, Nat.sub_add_cancel hk]

/-- Settles O27: each row of R90's table is linear arithmetic on the target's equation. -/
theorem branchTargetTable : Obligations.BranchTargetTable := by
  intro k s hlt hk
  obtain ⟨v, hv, htarget⟩ := exec_br_target hlt hk
  refine ⟨_, hv, htarget, ?_, ?_, ?_, ?_, rfl, rfl, rfl, rfl, rfl⟩ <;> rw [State.writePc_pc]
  · rintro rfl
    exact htarget
  · rintro rfl
    exact Nat.succ.inj htarget
  · omega
  · intro hlast
    have hzero : v.toNat = 0 := by omega
    exact BitVec.eq_of_toNat_eq hzero

/-- Settles O28: below index 0 the Branch raises. -/
theorem branchBelowZeroFaults : Obligations.BranchBelowZeroFaults :=
  fun _ _ hlt => exec_br_of_lt hlt

/-! ### Control flow does not read data (R94)

Two states in default mode with the same pc, status and program answer every step alike, up to registers and
output. -/

/-- Two answers with the same flow of control: next states in the same control, or one and the same stop. -/
inductive SameControlAnswers : Result → Result → Prop
  | next {u v : State} (h : SameControl u v) : SameControlAnswers (.next u) (.next v)
  | fault (r : Fault) : SameControlAnswers (.fault r) (.fault r)

theorem SameControl.pc_eq {s t : State} (h : SameControl s t) : s.pc = t.pc := h.1

theorem SameControl.status_eq {s t : State} (h : SameControl s t) : s.status = t.status := h.2.1

theorem SameControl.fetch_eq {s t : State} (h : SameControl s t) : fetch s = fetch t := by
  obtain ⟨hpc, -, himem, -, -⟩ := h
  rw [fetch, fetch, hpc, himem]

theorem SameControl.setStatus {s t : State} (h : SameControl s t) (c : Status) :
    SameControl (s.setStatus c) (t.setStatus c) := by
  obtain ⟨hpc, -, hrest⟩ := h
  exact ⟨hpc, rfl, hrest⟩

theorem SameControl.writePc {s t : State} (h : SameControl s t) (v : Word) :
    SameControl (s.writePc v) (t.writePc v) :=
  ⟨rfl, h.2⟩

/-- Registers and output are no part of the control. -/
theorem SameControl.withData {s t : State} (h : SameControl s t) (x y : RegFile) (o q : Option Word) :
    SameControl { s with x := x, out := o } { t with x := y, out := q } := h

theorem sameControlAnswers_setPc {s t : State} (h : SameControl s t) (n : Nat) :
    SameControlAnswers (setPc n s) (setPc n t) := by
  by_cases hn : n < 65536
  · rw [setPc_of_lt hn, setPc_of_lt hn]
    exact .next (h.writePc _)
  · rw [setPc, setPc, if_neg hn, if_neg hn]
    exact .fault _

theorem sameControlAnswers_advance {s t : State} (h : SameControl s t) :
    SameControlAnswers (advance s) (advance t) := by
  rw [advance, advance, h.pc_eq]
  exact sameControlAnswers_setPc h _

/-- Three fields below 3 name three registers. -/
theorem exists_regs_of_lt {f1 f2 f3 : RegField} (h : f1.toNat < 3 ∧ f2.toNat < 3 ∧ f3.toNat < 3) :
    ∃ a b c : Reg, f1 = a.field ∧ f2 = b.field ∧ f3 = c.field :=
  (fields_cases f1 f2 f3).resolve_right (by omega)

/-- EXECUTE: of data only the strict mode's overflow test could end a run, and the mode is default; an index
check reads none. -/
theorem exec_sameControl {s t : State} (h : SameControl s t) (i : Instr) :
    SameControlAnswers (exec i s) (exec i t) := by
  have ⟨hpc, _, _, hs, ht⟩ := h
  cases hwf : i.wellFormed with
  | false =>
    rw [exec_of_wellFormed_eq_false hwf, exec_of_wellFormed_eq_false hwf]
    exact .next (h.setStatus _)
  | true =>
    cases i with
    | halt => exact .next ((h.withData _ _ _ _).setStatus .halted)
    | load reg value =>
      obtain ⟨r, rfl⟩ := exists_reg_of_lt ((wellFormed_load_iff _ _).mp hwf)
      rw [exec_load_field, exec_load_field]
      exact sameControlAnswers_advance (h.withData _ _ _ _)
    | swap reg1 reg2 reg3 =>
      obtain ⟨a, b, c, rfl, rfl, rfl⟩ := exists_regs_of_lt ((wellFormed_swap_iff _ _ _).mp hwf)
      rw [exec_swap_field, exec_swap_field]
      exact sameControlAnswers_advance (h.withData _ _ _ _)
    | add reg1 reg2 reg3 =>
      obtain ⟨a, b, c, rfl, rfl, rfl⟩ := exists_regs_of_lt ((wellFormed_add_iff _ _ _).mp hwf)
      rw [exec_add_of_not_raises (not_addRaises_of_default hs a b),
        exec_add_of_not_raises (not_addRaises_of_default ht a b)]
      exact sameControlAnswers_advance (h.withData _ _ _ _)
    | br offset =>
      rcases Nat.lt_or_ge (s.pc.toNat + 2) offset.toNat with hlt | hle
      · rw [exec_br_of_lt hlt, exec_br_of_lt (hpc ▸ hlt)]
        exact .next (h.setStatus _)
      · rw [exec_br_of_le hle, exec_br_of_le (hpc ▸ hle), hpc]
        exact sameControlAnswers_setPc h _

/-- A step: status test, fetch and decode read only the control. -/
theorem step_sameControl {s t : State} (h : SameControl s t) : SameControlAnswers (step s) (step t) := by
  by_cases hrun : s.status = .running
  · have hrun' : t.status = .running := h.status_eq ▸ hrun
    cases hfetch : fetch s with
    | none =>
      rw [step_of_fetch_eq_none hrun hfetch, step_of_fetch_eq_none hrun' (h.fetch_eq ▸ hfetch)]
      exact .next (h.setStatus _)
    | some w =>
      have hfetch' : fetch t = some w := h.fetch_eq ▸ hfetch
      cases hdec : decode w with
      | none =>
        rw [step_of_decode_eq_none hrun hfetch hdec, step_of_decode_eq_none hrun' hfetch' hdec]
        exact .next (h.setStatus _)
      | some i =>
        rw [step_of_decode_eq_some hrun hfetch hdec, step_of_decode_eq_some hrun' hfetch' hdec]
        exact exec_sameControl h i
  · rw [terminalStatusTakesNoStep s hrun, terminalStatusTakesNoStep t (h.status_eq ▸ hrun)]
    exact .fault _

theorem runFor_sameControl {s t : State} (h : SameControl s t) (k : Nat) :
    SameControl (runFor k s) (runFor k t) := by
  induction k generalizing s t with
  | zero => exact h
  | succ k ih =>
    have hanswers := step_sameControl h
    generalize hs : step s = a, ht : step t = b at hanswers
    cases hanswers with
    | next huv =>
      rw [runFor_succ_next hs, runFor_succ_next ht]
      exact ih huv
    | fault r =>
      rw [runFor_succ_fault hs, runFor_succ_fault ht]
      exact h

/-- Settles O40: the pc and the status are part of the control, which every step keeps equal. -/
theorem controlFlowIgnoresData : Obligations.ControlFlowIgnoresData := fun _ _ h k =>
  ⟨(runFor_sameControl h k).pc_eq, (runFor_sameControl h k).status_eq⟩

/-! ### A revisited index repeats for ever (R94, R103)

A state and the state some steps later at the same index have the same control, so the next step of the one is
mirrored by the other, and the return moves on along the run with its distance unchanged. -/

theorem takeSteps_succ_eq_next {k : Nat} {s t : State} (h : takeSteps (k + 1) s = .next t) :
    ∃ u, step s = .next u ∧ takeSteps k u = .next t := by
  cases hstep : step s with
  | next u => exact ⟨u, rfl, (takeSteps_succ_next hstep k).symm.trans h⟩
  | fault r => cases (takeSteps_succ_fault hstep k).symm.trans h
  | refused r => cases (takeSteps_succ_refused hstep k).symm.trans h

theorem takeSteps_add {k : Nat} {s t : State} (h : takeSteps k s = .next t) (n : Nat) :
    takeSteps (k + n) s = takeSteps n t := by
  induction k generalizing s with
  | zero =>
    cases h
    rw [Nat.zero_add]
  | succ k ih =>
    obtain ⟨u, hu, hrest⟩ := takeSteps_succ_eq_next h
    rw [Nat.succ_add, takeSteps_succ_next hu]
    exact ih hrest

/-- Steps that end in a running state began in one, since no step leaves a terminal status (R24). -/
theorem running_of_takeSteps {k : Nat} {s t : State} (h : takeSteps k s = .next t)
    (ht : t.status = .running) : s.status = .running := by
  cases k with
  | zero =>
    cases h
    exact ht
  | succ k =>
    obtain ⟨u, hu, -⟩ := takeSteps_succ_eq_next h
    exact (step_next hu).1

/-- The parameters are no state (R27): no step changes them. -/
theorem step_keeps_parameters {s t : State} (h : step s = .next t) :
    t.imem = s.imem ∧ t.addOverflowFaults = s.addOverflowFaults := by
  obtain ⟨-, ⟨c, -, -, rfl⟩ | ⟨i, -, -, ha⟩⟩ := step_cases h
  · exact ⟨rfl, rfl⟩
  · exact ⟨ha.imem_eq, ha.addOverflowFaults_eq⟩

theorem takeSteps_keeps_parameters {k : Nat} {s t : State} (h : takeSteps k s = .next t) :
    t.imem = s.imem ∧ t.addOverflowFaults = s.addOverflowFaults := by
  induction k generalizing s with
  | zero =>
    cases h
    exact ⟨rfl, rfl⟩
  | succ k ih =>
    obtain ⟨u, hu, hrest⟩ := takeSteps_succ_eq_next h
    obtain ⟨himem, hmode⟩ := ih hrest
    obtain ⟨himem', hmode'⟩ := step_keeps_parameters hu
    exact ⟨himem.trans himem', hmode.trans hmode'⟩

/-- A run from `s` is back at the index of `s` after n steps: it is then in a running state `t` in the same
control as `s`. -/
structure ReturnsTo (n : Nat) (s t : State) : Prop where
  steps : takeSteps n s = .next t
  running : t.status = .running
  control : SameControl s t

theorem ReturnsTo.running_start {n : Nat} {s t : State} (h : ReturnsTo n s t) : s.status = .running :=
  h.control.status_eq.trans h.running

/-- In default mode a running state at the index the run began at is a return. -/
theorem returnsTo_of_pc_eq {n : Nat} {s t : State} (hmode : s.addOverflowFaults = false)
    (hsteps : takeSteps n s = .next t) (hrun : t.status = .running) (hpc : t.pc = s.pc) :
    ReturnsTo n s t := by
  obtain ⟨himem, hmode'⟩ := takeSteps_keeps_parameters hsteps
  exact ⟨hsteps, hrun, hpc.symm, (running_of_takeSteps hsteps hrun).trans hrun.symm, himem.symm, hmode,
    hmode'.trans hmode⟩

/-- A step of one state is mirrored by every state in the same control. -/
theorem SameControl.mirrors_step {s t s' : State} (h : SameControl s t) (hs : step s = .next s') :
    ∃ t', step t = .next t' ∧ SameControl s' t' := by
  have hanswers := step_sameControl h
  rw [hs] at hanswers
  generalize ht : step t = o at hanswers
  cases hanswers with
  | next hcontrol => exact ⟨_, rfl, hcontrol⟩

/-- A return moves on by one step at both its ends. -/
theorem ReturnsTo.step_next {m : Nat} {s t : State} (h : ReturnsTo (m + 1) s t) :
    ∃ s' t', step s = .next s' ∧ ReturnsTo (m + 1) s' t' := by
  obtain ⟨s', hs, hrest⟩ := takeSteps_succ_eq_next h.steps
  obtain ⟨t', ht, hcontrol⟩ := h.control.mirrors_step hs
  have hrun : s'.status = .running := running_of_takeSteps hrest h.running
  exact ⟨s', t', hs, (takeSteps_add hrest 1).trans (takeSteps_succ_next ht 0),
    hcontrol.status_eq.symm.trans hrun, hcontrol⟩

/-- A return moves on by any number of steps. -/
theorem ReturnsTo.takeSteps_next {m : Nat} {s t : State} (h : ReturnsTo (m + 1) s t) (k : Nat) :
    ∃ u v, takeSteps k s = .next u ∧ ReturnsTo (m + 1) u v := by
  induction k generalizing s t with
  | zero => exact ⟨s, t, rfl, h⟩
  | succ k ih =>
    obtain ⟨s', t', hs, h'⟩ := h.step_next
    rw [takeSteps_succ_next hs]
    exact ih h'

/-- Settles O41: after every number of steps the machine stands at the start of a return. -/
theorem revisitedPcRunsForever : Obligations.RevisitedPcRunsForever := by
  intro m s t hmode hsteps hrun hpc k
  obtain ⟨u, v, hu, h⟩ := (returnsTo_of_pc_eq hmode hsteps hrun hpc).takeSteps_next k
  exact ⟨u, v, hu, h.running_start, (takeSteps_add hu (m + 1)).trans h.steps, h.running,
    h.control.pc_eq.symm⟩

end Sys2Proof.Machine
end

section
/-!
PROOFS. The executor loop (46_executor_loop.md R96 to R110): what a step runs, that a running machine always
takes one, what explains the end of a run, and what the host sees.
-/

namespace Sys2Proof.Machine

/-! ### What explains an end (R102, R112, R122) -/

theorem decodedAt_eq_some {s : State} {w : Word} {i : Instr} (hfetch : fetch s = some w)
    (hdec : decode w = some i) : decodedAt s = some i := by
  rw [decodedAt, hfetch, Option.bind_some, hdec]

theorem endExplained_of_running {s : State} (h : s.status = .running) : EndExplained s := by
  rw [EndExplained, h]
  trivial

theorem advance_next_status {s t : State} (h : advance s = .next t) : t.status = s.status := by
  obtain ⟨-, rfl⟩ := setPc_next h
  rfl

/-- EXECUTE: an end writes neither the pc nor memory (R121), so the instruction that caused it still stands
at the pc, and its registers still hold the values that were tested. -/
theorem exec_endExplained {i : Instr} {s t : State} (hrun : s.status = .running)
    (hdec : decodedAt s = some i) (h : exec i s = .next t) : EndExplained t := by
  cases hwf : i.wellFormed with
  | false =>
    cases (exec_of_wellFormed_eq_false hwf s).symm.trans h
    exact ⟨i, hdec, hwf⟩
  | true =>
    cases i with
    | halt =>
      cases (exec_halt_eq s).symm.trans h
      exact hdec
    | load reg value =>
      obtain ⟨r, rfl⟩ := exists_reg_of_lt ((wellFormed_load_iff _ _).mp hwf)
      rw [exec_load_field] at h
      exact endExplained_of_running ((advance_next_status h).trans hrun)
    | swap reg1 reg2 reg3 =>
      obtain ⟨a, b, c, rfl, rfl, rfl⟩ := exists_regs_of_lt ((wellFormed_swap_iff _ _ _).mp hwf)
      rw [exec_swap_field] at h
      exact endExplained_of_running ((advance_next_status h).trans hrun)
    | add reg1 reg2 reg3 =>
      obtain ⟨a, b, c, rfl, rfl, rfl⟩ := exists_regs_of_lt ((wellFormed_add_iff _ _ _).mp hwf)
      by_cases hraise : AddRaises a b s
      · cases (exec_add_of_raises hraise c).symm.trans h
        obtain ⟨hstrict, hsum⟩ := hraise
        exact ⟨hstrict, a, b, c, hdec, hsum⟩
      · rw [exec_add_of_not_raises hraise] at h
        exact endExplained_of_running ((advance_next_status h).trans hrun)
    | br offset =>
      obtain ⟨hbelow, rfl⟩ | ⟨-, -, rfl⟩ := execBr_next h
      · exact .inr ⟨offset, hdec, hbelow⟩
      · exact endExplained_of_running hrun

/-- Settles O37: a step that ends before EXECUTE is explained by its own test, the rest by
`exec_endExplained`. -/
theorem everyEndIsExplained : Obligations.EveryEndIsExplained := by
  intro s t h
  obtain ⟨hrun, ⟨hfetch, rfl⟩ | ⟨w, hfetch, hdec, rfl⟩ | ⟨w, i, hfetch, hdec, hexec⟩⟩ := step_next h
  · exact .inl ((fetch_eq_none_iff s).mp hfetch)
  · exact ⟨w, hfetch, hdec⟩
  · exact exec_endExplained hrun (decodedAt_eq_some hfetch hdec) hexec

/-! ### Progress (R21, R96) -/

/-- Settles O32: the model's own stop needs a pc beyond any memory. -/
theorem everyInstructionCompletes : Obligations.EveryInstructionCompletes :=
  fun i _ hlt => exec_next_of_lt i hlt

/-- A running machine ends before EXECUTE, or executes inside instruction memory, where every instruction
answers a next state. -/
theorem step_next_of_running {s : State} (hrun : s.status = .running) : ∃ t, step s = .next t := by
  cases hfetch : fetch s with
  | none => exact ⟨_, step_of_fetch_eq_none hrun hfetch⟩
  | some w =>
    cases hdec : decode w with
    | none => exact ⟨_, step_of_decode_eq_none hrun hfetch hdec⟩
    | some i =>
      rw [step_of_decode_eq_some hrun hfetch hdec]
      exact exec_next_of_lt i (fetch_lt hfetch)

/-- Settles O38: progress, and the invariant by O36's theorem. -/
theorem runningMachineSteps : Obligations.RunningMachineSteps := by
  intro s hrun
  obtain ⟨t, ht⟩ := step_next_of_running hrun
  exact ⟨t, ht, fun hinv => stepKeepsInvariant s t hinv ht⟩

/-! ### What a step runs (R96) -/

/-- Settles O11: the three tests of a step pass. -/
theorem stepRunsDecodedInstruction : Obligations.StepRunsDecodedInstruction :=
  fun _ _ _ => step_of_decode_eq_some

/-- A whole word keeps all its bits. -/
theorem tableWord_sixteen (w : Nat) : tableWord 16 w = BitVec.ofNat 16 w := by
  apply BitVec.eq_of_toNat_eq
  rw [tableWord, BitVec.toNat_ofNat, BitVec.toNat_ofNat, Nat.mod_mod]

/-- The word placed at a pc some memory can hold is the one fetched there (log entry 11). -/
theorem fetch_withFetchWord {s : State} (hwf : s.imem.wf = true) (hpc : s.pc.toNat < 65534)
    (nbits w : Nat) : fetch (s.withFetchWord nbits w) = some (tableWord nbits w) :=
  Memory.readWord_placeWord_same hwf hpc _

/-- Settles O6: the machine is left running with the placed word at the pc. -/
theorem placedWordIsRunNext : Obligations.PlacedWordIsRunNext := by
  intro s w i hwf hpc hdec
  refine step_of_decode_eq_some rfl (fetch_withFetchWord hwf hpc 16 w) ?_
  rw [tableWord_sixteen, hdec]

/-! ### What the host sees (R109, R110) -/

/-- Settles O44: each side of the view's test on status. -/
theorem hostReadsOnlyEndedRuns : Obligations.HostReadsOnlyEndedRuns :=
  fun _ => ⟨rfl, fun hrun => if_pos hrun, fun hend => if_neg hend⟩

theorem blockSignals_imemLen_toNat (s : State) : (blockSignals s).imemLen.toNat = s.imem.len.val :=
  ofNat_toNat_of_lt (Nat.lt_of_le_of_lt s.imem.len_le (by decide))

/-- Settles O45: the address and the data are the pc and what is fetched there; the length fits its 16
bits. -/
theorem instructionPort : Obligations.InstructionPort :=
  fun s => ⟨rfl, blockSignals_imemLen_toNat s, fetch_eq_none_iff s, fun _ => rfl⟩

end Sys2Proof.Machine
end

section
/-!
PROOFS. The exceptional conditions (60_exceptions.md R111 to R124) and reset (70_reset_and_hazards.md R131,
R133): which condition a step reports, what a step that ends the run leaves, and what can be read after it.
-/

namespace Sys2Proof.Machine

/-! ### The status each condition leaves (R112, R123) -/

theorem status_eq_of_next_eq {o : Result} {u t : State} (hu : o = .next u) (ht : o = .next t) :
    t.status = u.status :=
  congrArg State.status (Host.Outcome.next.inj (ht.symm.trans hu))

theorem exec_load_field_status {r : Reg} {value : BitVec 8} {s t : State}
    (h : exec (.load r.field value) s = .next t) : t.status = s.status := by
  rw [exec_load_field] at h
  rw [advance_next_status h, State.setReg_status]

theorem exec_swap_field_status {a b c : Reg} {s t : State}
    (h : exec (.swap a.field b.field c.field) s = .next t) : t.status = s.status := by
  rw [exec_swap_field] at h
  rw [advance_next_status h, rotate_status]

/-- Add's own condition is the overflow of its exact sum in strict mode (R120). -/
theorem exec_add_field_status {a b c : Reg} {s t : State}
    (h : exec (.add a.field b.field c.field) s = .next t) :
    t.status =
      if s.addOverflowFaults = true ∧ 65536 ≤ (s.readReg a).toNat + (s.readReg b).toNat
      then .faultAddOverflow else s.status := by
  by_cases hraise : AddRaises a b s
  · exact (status_eq_of_next_eq (exec_add_of_raises hraise c) h).trans (if_pos hraise).symm
  · rw [exec_add_of_not_raises hraise] at h
    exact (advance_next_status h).trans (if_neg hraise).symm

/-- Branch's own condition is a target below 0 (R119). -/
theorem exec_br_status {k : BitVec 12} {s t : State} (h : exec (.br k) s = .next t) :
    t.status = if s.pc.toNat + 2 < k.toNat then .faultPcRange else s.status := by
  obtain ⟨hbelow, rfl⟩ | ⟨hk, -, rfl⟩ := execBr_next h
  · exact (if_pos hbelow).symm
  · exact (if_neg (Nat.not_lt_of_le hk)).symm

/-- Settles O29: the validation comes first in every meaning that carries an index; Halt's end is its own,
and a Branch is always well-formed. -/
theorem badRegisterIndexFaults : Obligations.BadRegisterIndexFaults := by
  refine ⟨fun reg value s hbad => withReg_bad hbad s _,
    fun reg1 reg2 reg3 s hbad => ⟨withRegs_bad hbad s _, exec_add_bad hbad s⟩,
    fun s t h => ?_, fun k s t hrun h => ?_⟩
  · rw [status_eq_of_next_eq (exec_halt_eq s) h]
    nofun
  · exact exec_status_ne_faultRegIndex (wellFormed_br k) (hrun ▸ nofun) h

/-! ### The order of the tests (R98, R118, R123, R133) -/

/-- Settles O12: nothing is fetched at or beyond IMEM_LEN. -/
theorem fetchBeyondMemoryFaults : Obligations.FetchBeyondMemoryFaults :=
  fun s hrun hbeyond => step_of_fetch_eq_none hrun ((fetch_eq_none_iff s).mpr hbeyond)

/-- A step at a decodable word executes it: range and decode raise nothing before (R96). -/
theorem exec_of_decodedAt {s t : State} {i : Instr} (h : step s = .next t)
    (hdec : decodedAt s = some i) : exec i s = .next t := by
  obtain ⟨hrun, -⟩ := step_next h
  obtain ⟨w, hfetch, hw⟩ := Option.bind_eq_some_iff.mp hdec
  exact (step_of_decode_eq_some hrun hfetch hw).symm.trans h

/-- Settles O15: the first two conditions end the step before EXECUTE, the third is the validation of
EXECUTE, and the rest are the instruction's own. -/
theorem conditionsHaveOnePriority : Obligations.ConditionsHaveOnePriority := by
  intro s t h
  obtain ⟨hrun, -⟩ := step_next h
  have hexec : ∀ {i}, decodedAt s = some i → exec i s = .next t := exec_of_decodedAt h
  refine ⟨fun hbeyond => ?range, fun w hfetch hw => ?opcode, fun i hdec hwf => ?index,
    fun i hdec hwf => ?own, fun hdec => ?halt, fun r value hdec => ?load,
    fun a b c hdec => ?swap, fun a b c hdec => ?add, fun k hdec => ?br⟩
  case range => exact status_eq_of_next_eq (fetchBeyondMemoryFaults s hrun hbeyond) h
  case opcode =>
    have hdec : decode w = none := (decode_eq_none_iff w).mpr hw
    exact status_eq_of_next_eq (step_of_decode_eq_none hrun hfetch hdec) h
  case index => exact status_eq_of_next_eq (exec_of_wellFormed_eq_false hwf s) (hexec hdec)
  case own =>
    exact ⟨exec_status_ne_faultRegIndex hwf (hrun ▸ nofun) (hexec hdec),
      hrun ▸ (exec_answer (hexec hdec)).status_cases⟩
  case halt => exact status_eq_of_next_eq (exec_halt_eq s) (hexec hdec)
  case load => exact (exec_load_field_status (hexec hdec)).trans hrun
  case swap => exact (exec_swap_field_status (hexec hdec)).trans hrun
  case add => exact hrun ▸ exec_add_field_status (hexec hdec)
  case br => exact hrun ▸ exec_br_status (hexec hdec)

/-! ### What an ending step leaves, and what can be read after it (R114, R115, R121, R122) -/

/-- Settles O34: the two shapes of answer that write a register or the pc leave the machine running. -/
theorem endingStepIsPrecise : Obligations.EndingStepIsPrecise := by
  intro s t h hend
  obtain ⟨hrun, ⟨c, -, -, rfl⟩ | ⟨i, -, -, ha⟩⟩ := step_cases h
  · exact ⟨rfl, rfl, rfl, rfl, fun _ => rfl⟩
  · cases ha with
    | halt => exact ⟨rfl, rfl, rfl, rfl, fun hno => absurd rfl hno⟩
    | fault c => exact ⟨rfl, rfl, rfl, rfl, fun _ => rfl⟩
    | compute x => exact absurd hrun hend
    | branch k => exact absurd hrun hend

/-- The fatal conditions of R111. -/
theorem isFault_eq_true_iff (c : Status) :
    c.isFault = true ↔ c = .faultRegIndex ∨ c = .faultPcRange ∨ c = .faultAddOverflow := by
  cases c <;> decide

theorem isFault_eq_false_iff (c : Status) :
    c.isFault = false ↔ c = .running ∨ c = .halted ∨ c = .stoppedUnknownOpcode := by
  cases c <;> decide

theorem diagnostic_of_isFault {s : State} (h : s.status.isFault = true) :
    diagnostic s = some ⟨s.pc, (fetch s).map opcodeField, s.status⟩ :=
  if_pos h

theorem diagnostic_of_not_isFault {s : State} (h : s.status.isFault = false) : diagnostic s = none :=
  if_neg (Bool.eq_false_iff.mp h)

/-- Settles O46: an ending step is precise, so the pc and the word there are still those of the step that
faulted. -/
theorem diagnosticNamesTheFault : Obligations.DiagnosticNamesTheFault := by
  intro s t h
  refine ⟨fun hfatal => ?_, fun hother =>
    diagnostic_of_not_isFault ((isFault_eq_false_iff _).mpr hother)⟩
  have hfault : t.status.isFault = true := (isFault_eq_true_iff _).mpr hfatal
  obtain ⟨-, hpc, himem, -, -⟩ := endingStepIsPrecise s t h (ne_running_of_isFault hfault)
  have hfetch : fetch t = fetch s := by rw [fetch, fetch, hpc, himem]
  rw [diagnostic_of_isFault hfault, hpc, hfetch]

/-- No status has a code above 5 (R23). -/
theorem code_toNat_le (c : Status) : c.code.toNat ≤ 5 := by
  cases c <;> decide

/-- Settles O43: each condition's code is evaluated; 6 and 7 lie above every code. -/
theorem statusCodes : Obligations.StatusCodes := by
  refine ⟨rfl, rfl, rfl, rfl, rfl, rfl, fun c => ⟨fun h => ?_, fun h => ?_⟩⟩
  all_goals exact absurd (h ▸ code_toNat_le c) (by decide)

/-! ### Reset (R131) -/

/-- Settles O2: reset writes every item of state and neither parameter. -/
theorem resetForgetsTheRun : Obligations.ResetForgetsTheRun := by
  intro s
  obtain ⟨hx, hpc, hstatus, hvalid, hdata⟩ := resetLeavesStatedValues
  exact ⟨hx, hpc, hstatus, hvalid, hdata, assertReset_imem s, assertReset_addOverflowFaults s⟩

end Sys2Proof.Machine
end
